-- ==== Sys2Proof/Word.lean ====
section
/-! DEFINITION. The widths OTPCORE's data come in (00_scope.md R7, R9, R10). -/

namespace Sys2Proof

/-- WORD: 32 bits; every sum of words is modulo 2^32 (R7, R12). -/
abbrev Word := BitVec 32

/-- One byte of a byte sequence or of a buffer cell (R10). -/
abbrev Byte := BitVec 8

end Sys2Proof
end

