-- ==== Sys2Proof/Config.lean ====
section
/-! DEFINITION. What an implementation fixes (R8) and the free values (93_implementation_defined.md U8, U10, U17). The
opaque constants have no body: nothing can prove a value of one. -/

namespace Sys2Proof

/-- The capacities of one OTPCORE instance, the parameters of R8. They are fixed for the instance (R39); the model carries
them beside the state so that every statement holds for all of them. -/
structure Params where
  /-- `MSG_CAP`, in bytes -/
  msgCap : Nat
  /-- `KEY_CAP`, in bytes -/
  keyCap : Nat
  deriving DecidableEq, Repr

/-- R8's suggested values for tests (DESIGN CHOICE, log 1). -/
def Params.suggested : Params := { msgCap := 4096, keyCap := 256 }

/-- FREE VALUE (log 2). What the buffer cell at a register index holds between the reset numbered `epoch` and the first
host write to it (R31, R260, U8). -/
opaque Config.freeCell (epoch index : Nat) : Byte

/-- FREE VALUE (log 4). What the host's read numbered `draw` of a register in the engine's hands returns (R45, U10). -/
opaque Config.freeWord (draw : Nat) : Word

/-- `BUS_BASE` (R8, U17): the platform's choice; no rule reads it. -/
opaque Config.busBase : Nat

/-- `BUS_STRIDE` (R8, U17): the platform's choice; no rule reads it. -/
opaque Config.busStride : Nat

/-- The bus byte address a platform gives register index `i` (R8, R60); no rule of the model reads it. -/
def Config.busAddress (i : Nat) : Nat := Config.busBase + Config.busStride * i

end Sys2Proof
end

