-- ==== Sys2Proof/Syntax.lean ====
section
/-! DEFINITION. The command set (R2, R92), the registers a host can name (R20, R61), the fault causes (R222), and the
accesses a host script is made of (R97). -/

namespace Sys2Proof

/-- The six commands of "OTPCORE command set, version 1" (R2, R92). A command word carries no operand (R91), so no
constructor has an argument. -/
inductive Instr where
  /-- 0x00000001, R140 -/
  | init
  /-- 0x00000002, R141 -/
  | compress
  /-- 0x00000003, R142 -/
  | hash
  /-- 0x00000004, R177 -/
  | mac
  /-- 0x00000005, R195 -/
  | hotp
  /-- 0x00000006, R207 -/
  | totp
  deriving DecidableEq, Repr

/-- Why a 32-bit word is not a command word (R95). Either way the decode step raises ILLEGAL_CMD. -/
inductive DecodeError where
  /-- the field `RSV`, bits 31:8, is not 0 -/
  | reservedNotZero
  /-- the field `OPC`, bits 7:0, is none of 1..6 -/
  | opcodeUndefined
  deriving DecidableEq, Repr

/-- The fault causes of R222. -/
inductive Cause where
  /-- 1: the decoded word is no command word -/
  | illegalCmd
  /-- 2: `MSG_LEN > MSG_CAP` at the decode of `HASH` or `MAC` -/
  | msgLenRange
  /-- 3: `KEY_LEN > KEY_CAP` at the decode of `MAC`, `HOTP` or `TOTP` -/
  | keyLenRange
  /-- 4: `STEP = 0` at the decode of `TOTP` -/
  | stepZero
  /-- 15: reserved for self-checks; no rule raises it (R222, R226), and nothing in this model does -/
  | internal
  deriving DecidableEq, Repr

/-- What a register index names (R20, R61): a whole 32-bit register or one buffer cell, given by its offset. -/
inductive Reg where
  | cmd
  | status
  | msgLen
  | keyLen
  | ctrHi
  | ctrLo
  | nowHi
  | nowLo
  | stepLen
  | code
  | digest (k : Fin 5)
  | blk (j : Fin 16)
  | keyCell (offset : Nat)
  | msgCell (offset : Nat)
  deriving DecidableEq, Repr

/-- What can happen to OTPCORE next (R40): a host access, the engine's turn, or a reset. A host script is a list of
these; where the engine's turns stand in it says how long each `BUSY` lasts (R270 leaves that open). -/
inductive Event where
  /-- `HostRead(index)`, R41 -/
  | read (index : Nat)
  /-- `HostWrite(index, value)`, R42 -/
  | write (index : Nat) (value : Word)
  /-- the engine's complete step, if one is enabled, R44 -/
  | engine
  /-- the reset input, R260 -/
  | reset
  deriving DecidableEq, Repr

end Sys2Proof
end

