-- ==== Sys2Proof/WellFormed.lean ====
section
/-! DEFINITION. Which words, parameters and accesses the spec allows. -/

namespace Sys2Proof

/-- A command word has `RSV` = 0 and `OPC` in 1..6 (R90, R92, R95). -/
def wellFormedWord (v : Word) : Bool :=
  v.toNat / 256 == 0 && (1 ≤ v.toNat % 256 && v.toNat % 256 ≤ 6)

/-- A command carries no operand (R91), so every command is well formed. -/
def Instr.wellFormed : Instr → Bool
  | .init => true
  | .compress => true
  | .hash => true
  | .mac => true
  | .hotp => true
  | .totp => true

/-- The constraints of R8: `1 <= MSG_CAP <= 2^24` and `1 <= KEY_CAP <= 2^16`. -/
def Params.wellFormed (p : Params) : Bool :=
  (1 ≤ p.msgCap && p.msgCap ≤ 2 ^ 24) && (1 ≤ p.keyCap && p.keyCap ≤ 2 ^ 16)

/-- A host access names a register index, an integer below 2^25 (R60). -/
def Event.wellFormed : Event → Bool
  | .read i => i < 2 ^ 25
  | .write i _ => i < 2 ^ 25
  | .engine => true
  | .reset => true

end Sys2Proof
end

