-- ==== Sys2Proof/Decode.lean ====
section
/-! DEFINITION. Command words: fields, decoder, encoder (30_encoding.md R90 to R96). A command word reaches `CMD` as one
32-bit value, so there is no byte order to settle (R63, R69). -/

namespace Sys2Proof

/-- The field `OPC`, bits 7:0 of a command word (R90). -/
def opcField (v : Word) : BitVec 8 := v.extractLsb' 0 8

/-- The field `RSV`, bits 31:8 of a command word (R90). -/
def rsvField (v : Word) : BitVec 24 := v.extractLsb' 8 24

/-- The opcode map of R92, on the field `OPC`. -/
def opcodeInstr (opc : Nat) : Option Instr :=
  match opc with
  | 1 => some .init
  | 2 => some .compress
  | 3 => some .hash
  | 4 => some .mac
  | 5 => some .hotp
  | 6 => some .totp
  | _ => none

/-- The decoder: total on every 32-bit value, rejecting by name (R92, R95). -/
def decode (v : Word) : Except DecodeError Instr :=
  if rsvField v = 0 then
    match opcodeInstr (opcField v).toNat with
    | some i => .ok i
    | none => .error .opcodeUndefined
  else .error .reservedNotZero

/-- The command word of a command (R92). -/
def encode : Instr → Word
  | .init => 0x00000001#32
  | .compress => 0x00000002#32
  | .hash => 0x00000003#32
  | .mac => 0x00000004#32
  | .hotp => 0x00000005#32
  | .totp => 0x00000006#32

/-- The value OTPCORE sees as a command word when a word of the opcode table has `nbits` bits, `w`: the bits from `nbits` on
are 0, and the value is 32 bits wide (log 16). -/
def tableWord (nbits w : Nat) : Word := BitVec.ofNat 32 (w % 2 ^ nbits)

/-- The command the decoder reads from a word numbered as spec/opcode_table.json numbers its bits. -/
def decodeTableWord (nbits w : Nat) : Option Instr :=
  match decode (tableWord nbits w) with
  | .ok i => some i
  | .error _ => none

end Sys2Proof
end

