-- ==== Sys2Proof/Machine/Bits.lean ====
section
/-! DEFINITION. Word operators, byte sequences and big-endian conversions (00_scope.md R10, R11, R12; 20_memory.md R66). -/

namespace Sys2Proof.Machine

/-- `ROTL32(x, n)` for 1 <= n <= 31 (R12): the top n bits come back as the bottom n. -/
def rotl32 (x : Word) (n : Nat) : Word := (x <<< n) ||| (x >>> (32 - n))

/-- `BE32(b0, b1, b2, b3)`: `b0` is the most significant byte (R11). -/
def be32 (b0 b1 b2 b3 : Byte) : Word := ((b0 ++ b1) ++ b2) ++ b3

/-- Byte `i` of a word, byte 0 being bits 31:24 (R11, R33). -/
def byteOf (v : Word) (i : Fin 4) : Byte := v.extractLsb' (24 - 8 * i.val) 8

/-- `ToBE32(v)` (R11). -/
def toBE32 (v : Word) : List Byte := [byteOf v 0, byteOf v 1, byteOf v 2, byteOf v 3]

/-- A 64-bit value from its two registers, `hi * 2^32 + lo` (R27, R28, R94). -/
def joinWords (hi lo : Word) : BitVec 64 := hi ++ lo

/-- Bits 63:32 (R207). -/
def hiWord (v : BitVec 64) : Word := v.extractLsb' 32 32

/-- Bits 31:0 (R207). -/
def loWord (v : BitVec 64) : Word := v.extractLsb' 0 32

/-- `ToBE64(v)` (R11). -/
def toBE64 (v : BitVec 64) : List Byte := toBE32 (hiWord v) ++ toBE32 (loWord v)

/-- `zeros(n)` (R10). -/
def zeroBytes (n : Nat) : List Byte := List.replicate n 0

/-- `xorb(s, c)` (R10). -/
def xorBytes (s : List Byte) (c : Byte) : List Byte := s.map (· ^^^ c)

/-- A register file from the sequence of its cells, of the right length. -/
def vectorOf {α : Type} {n : Nat} (l : List α) (h : l.length = n) : Vector α n := ⟨l.toArray, by simp [h]⟩

end Sys2Proof.Machine
end

