-- ==== Sys2Proof/Machine/Constants.lean ====
section
/-! DEFINITION. The constants of R7, R21, R61 and R133: fixed, never mutated, not state (R39). -/

namespace Sys2Proof.Machine

/-- `IV[0..4]` (R21). -/
def iv : Vector Word 5 := #v[0x67452301, 0xEFCDAB89, 0x98BADCFE, 0x10325476, 0xC3D2E1F0]

/-- `KC(s)`, the round constant of stage `s` (R133). PRESUMED by the spec itself: the four values are general knowledge
there, accepted by its decision D24 (log 13). -/
def roundConstant (stage : Fin 4) : Word :=
  match stage with
  | 0 => 0x5A827999
  | 1 => 0x6ED9EBA1
  | 2 => 0x8F1BBCDC
  | 3 => 0xCA62C1D6

/-- The byte appended first by the padder (R110). -/
def padMarker : Byte := 0x80

/-- `IPAD` (R7, R173). -/
def ipad : Byte := 0x36

/-- `OPAD` (R7, R175). -/
def opad : Byte := 0x5C

/-- The mask that clears bit 31 of the truncation window (R192). -/
def windowMask : Word := 0x7FFFFFFF

/-- The modulus of the 6-digit code (R7, R193). -/
def codeModulus : Nat := 1000000

/-- `STEP_DEFAULT`, seconds (R7, R29). -/
def stepDefault : Word := 30

/-- The register index of `KEYBUF[0]` (R61). -/
def keyBase : Nat := 0x00010000

/-- The register index of `MSGBUF[0]` (R61). -/
def msgBase : Nat := 0x01000000

end Sys2Proof.Machine
end

