-- ==== Sys2Proof/Machine/Padder.lean ====
section
/-! DEFINITION. The padder and block splitter (40_padder.md). -/

namespace Sys2Proof.Machine

/-- An input of the padder: a byte sequence whose bit length fits the 64-bit length field. `Pad` is not defined for longer
ones (R110, R116, U1; log 14). -/
structure PadInput where
  bytes : List Byte
  fits : 8 * bytes.length < 2 ^ 64
  deriving DecidableEq, Repr

/-- A block: 16 words, always (R22, R114). -/
abbrev Block := Vector Word 16

/-- `z = (55 - L) mod 64`, the remainder not negative (R110). -/
def padZeros (len : Nat) : Nat := ((55 - (len : Int)) % 64).toNat

/-- `P(m) = m || 0x80 || zeros(z) || ToBE64(8 * L)` (R110). -/
def padBytes (m : PadInput) : List Byte :=
  m.bytes ++ [padMarker] ++ zeroBytes (padZeros m.bytes.length) ++ toBE64 (BitVec.ofNat 64 (8 * m.bytes.length))

/-- `NB(L) = (L + 8) div 64 + 1` (R112). -/
def numBlocks (len : Nat) : Nat := (len + 8) / 64 + 1

/-- The 16 big-endian words of a 64-byte chunk (R67). -/
def packBlock (c : List Byte) : Block :=
  Vector.ofFn fun j : Fin 16 =>
    be32 (c.getD (4 * j.val) 0) (c.getD (4 * j.val + 1) 0) (c.getD (4 * j.val + 2) 0) (c.getD (4 * j.val + 3) 0)

/-- `Pad(m)`: the padded bytes cut into consecutive 64-byte chunks (R110 step 5, R114). -/
def pad (m : PadInput) : List Block :=
  (List.range (numBlocks m.bytes.length)).map fun i => packBlock (((padBytes m).drop (64 * i)).take 64)

end Sys2Proof.Machine
end

