-- ==== Sys2Proof/Machine/State.lean ====
section
/-! DEFINITION. All state of OTPCORE (10_state.md R20), the model's own fields beside it, the reasons a step can stop, and
the state after reset (R47). -/

namespace Sys2Proof.Machine

/-- The buffer cells the host has written since reset, as (register index, byte) pairs with rising indices (log 3). An
index that is not listed has no written value; what its cell then holds is `State.cell`'s matter. -/
abbrev Memory := List Host.Cell

/-- The five working registers `A`, `B`, `C`, `D`, `E` (R34). -/
structure Work where
  a : Word
  b : Word
  c : Word
  d : Word
  e : Word
  deriving DecidableEq, Repr

/-- What one host read returned: the index read and the 32-bit value (R41). -/
structure ReadBack where
  index : Nat
  value : Word
  deriving DecidableEq, Repr

/-- The state of one OTPCORE instance (R20), then the model's own fields. -/
structure State where
  /-- `CMD` (R23) -/
  cmd : Word
  /-- `STATUS` (R24); its fields are named in Machine/Flags.lean -/
  status : Word
  /-- `MSG_LEN` (R25) -/
  msgLen : Word
  /-- `KEY_LEN` (R26) -/
  keyLen : Word
  /-- `CTR_HI` (R27) -/
  ctrHi : Word
  /-- `CTR_LO` (R27) -/
  ctrLo : Word
  /-- `NOW_HI` (R28) -/
  nowHi : Word
  /-- `NOW_LO` (R28) -/
  nowLo : Word
  /-- `STEP` (R29) -/
  stepLen : Word
  /-- `CODE` (R30) -/
  code : Word
  /-- `DIGEST[0..4]` (R21) -/
  digest : Vector Word 5
  /-- `BLK[0..15]` (R22) -/
  blk : Vector Word 16
  /-- `KEYBUF` and `MSGBUF` (R31, R32), by register index -/
  mem : Memory
  /-- `A`, `B`, `C`, `D`, `E` (R34) -/
  work : Work
  /-- `W[0..79]` (R35) -/
  sched : Vector Word 80
  /-- `K0[0..63]` (R36) -/
  k0 : Vector Byte 64
  /-- `INNER[0..19]` (R37) -/
  inner : Vector Byte 20
  /-- `T`, the round index (R38) -/
  t : BitVec 7
  /-- `BI`, the block index (R38) -/
  bi : Word
  /-- `NB`, the number of blocks (R38) -/
  nb : Word
  /-- the model's own: the instance's capacities, never changed by a step (R8, R39; log 1) -/
  params : Params
  /-- the model's own: what happens next, first event first (log 8) -/
  pending : List Event
  /-- the model's own: what the host's reads have returned, oldest first (log 10) -/
  reads : List ReadBack
  /-- the model's own: how many free values the host's reads have taken (log 4) -/
  draws : Nat
  /-- the model's own: how many resets have happened (log 2) -/
  epoch : Nat
  deriving DecidableEq, Repr

/-- Why a step can fault. The spec's own faults are not here: they are latched in `STATUS` and are next states (R221).
Both reasons below belong to states that no run from reset reaches (log 12), and stopping there is safe. -/
inductive Fault where
  /-- Raised by a command's complete step (`commandStep`) when an operand is one that its decode would have refused: R43 and
  R93 make this impossible. Safe: the model stops instead of inventing a result. -/
  | operandOutOfRange
  /-- Raised by the engine's turn (`engineTurn`) when `BUSY` is 1 and `CMD` holds no command word: R93 makes this impossible.
  Safe: the model stops instead of inventing a command. -/
  | noCommand
  deriving DecidableEq, Repr

/-- Why a step can refuse. -/
inductive Refusal where
  /-- Raised by an arm of `exec` whose command has no meaning yet; no arm does. Safe. -/
  | notModelled (mnemonic : String)
  /-- Raised by a host access to an unmapped register index (`hostRead`, `hostWrite`): "a model gives a host script
  containing such an access no meaning" (R64, U11). Safe. -/
  | unmappedIndex (index : Nat)
  deriving DecidableEq, Repr

/-- The state right after reset (R47), nothing placed and nothing pending. The internal registers (R34 to R38), for which
the spec gives no value, hold 0 (DESIGN CHOICE, log 5). -/
def State.reset : State where
  cmd := 0
  status := 0
  msgLen := 0
  keyLen := 0
  ctrHi := 0
  ctrLo := 0
  nowHi := 0
  nowLo := 0
  stepLen := stepDefault
  code := 0
  digest := iv
  blk := Vector.replicate 16 0
  mem := []
  work := { a := 0, b := 0, c := 0, d := 0, e := 0 }
  sched := Vector.replicate 80 0
  k0 := Vector.replicate 64 0
  inner := Vector.replicate 20 0
  t := 0
  bi := 0
  nb := 0
  params := Params.suggested
  pending := []
  reads := []
  draws := 0
  epoch := 0

end Sys2Proof.Machine
end

