-- ==== Sys2Proof/Machine/Compression.lean ====
section
/-! DEFINITION. The compression engine (41_compression.md): the pure functions of R131 to R138, then the engine's sequencing of
them over its registers (R139). -/

namespace Sys2Proof.Machine

/-! ### Pure functions -/

/-- Append `n` words to a schedule of at least 16, each from the four taps at distances 3, 8, 14 and 16 (R131). -/
def extendSchedule : Nat → List Word → List Word
  | 0, w => w
  | n + 1, w =>
    let i := w.length
    extendSchedule n
      (w ++ [rotl32 (w.getD (i - 3) 0 ^^^ w.getD (i - 8) 0 ^^^ w.getD (i - 14) 0 ^^^ w.getD (i - 16) 0) 1])

theorem extendSchedule_length (n : Nat) (w : List Word) : (extendSchedule n w).length = w.length + n := by
  induction n generalizing w with
  | zero => rfl
  | succ n ih => simp [extendSchedule, ih]; omega

/-- `Schedule(blk)`: the block's 16 words, then 64 more (R131). -/
def schedule (blk : Block) : Vector Word 80 :=
  vectorOf (extendSchedule 64 blk.toList) (by simp [extendSchedule_length])

/-- `s = t div 20` (R134, R145). -/
def stageOf (t : Fin 80) : Fin 4 := ⟨t.val / 20, by omega⟩

/-- `F(s, b, c, d)`: choice, parity, majority, parity (R132). -/
def stageFunction (stage : Fin 4) (b c d : Word) : Word :=
  match stage with
  | 0 => (b &&& c) ||| (~~~b &&& d)
  | 1 => b ^^^ c ^^^ d
  | 2 => (b &&& c) ||| (b &&& d) ||| (c &&& d)
  | 3 => b ^^^ c ^^^ d

/-- `Round(t, (a, b, c, d, e), w)` (R134). A round index outside 0..79 is no argument of it (R144, R226). -/
def oneRound (t : Fin 80) (r : Work) (w : Vector Word 80) : Work :=
  { a := rotl32 r.a 5 + stageFunction (stageOf t) r.b r.c r.d + r.e + w[t.val] + roundConstant (stageOf t)
    b := r.a
    c := rotl32 r.b 30
    d := r.c
    e := r.d }

/-- The working registers at the start of a block (R135). -/
def loadedWork (h : Vector Word 5) : Work := { a := h[0], b := h[1], c := h[2], d := h[3], e := h[4] }

/-- The working registers added back (R137). -/
def folded (h : Vector Word 5) (r : Work) : Vector Word 5 :=
  #v[h[0] + r.a, h[1] + r.b, h[2] + r.c, h[3] + r.d, h[4] + r.e]

/-- `r(n)`: the working registers after rounds 0..n-1 (R136, R138). -/
def afterRounds (w : Vector Word 80) (r0 : Work) : (n : Nat) → n ≤ 80 → Work
  | 0, _ => r0
  | n + 1, h => oneRound ⟨n, h⟩ (afterRounds w r0 n (Nat.le_of_succ_le h)) w

/-- `Compress(h, blk)` (R138). -/
def compress (h : Vector Word 5) (blk : Block) : Vector Word 5 :=
  folded h (afterRounds (schedule blk) (loadedWork h) 80 (Nat.le_refl 80))

/-- `HashBlocks(blocks)`, from `IV` (R138). -/
def hashBlocks (blocks : List Block) : Vector Word 5 := blocks.foldl compress iv

/-- `Sha(m) = HashBlocks(Pad(m))` (R138). -/
def sha (m : PadInput) : Vector Word 5 := hashBlocks (pad m)

/-- `DigestBytes(h)`: the five words as 20 big-endian bytes (R138, R143). -/
def digestBytes (h : Vector Word 5) : List Byte :=
  toBE32 h[0] ++ toBE32 h[1] ++ toBE32 h[2] ++ toBE32 h[3] ++ toBE32 h[4]

@[simp] theorem digestBytes_length (h : Vector Word 5) : (digestBytes h).length = 20 := rfl

/-- `TAG`, the byte view of `DIGEST` (R33). -/
def tagOf (h : Vector Word 5) : Vector Byte 20 := vectorOf (digestBytes h) (digestBytes_length h)

/-! ### Sequencing over the registers (R139's reference sequencing; log 6) -/

/-- One round on the engine's registers, `T` counted up (R139). Only `T` < 80 starts a round (R38). -/
def roundStep (s : State) (h : s.t.toNat < 80) : State :=
  { s with work := oneRound ⟨s.t.toNat, h⟩ s.work s.sched, t := s.t + 1 }

/-- `while T < 80` (R139), with as many turns as the first argument allows; 80 are enough. -/
def runRounds : Nat → State → State
  | 0, s => s
  | n + 1, s => if h : s.t.toNat < 80 then runRounds n (roundStep s h) else s

/-- `FoldSeq()` (R139): schedule, load, 80 rounds, fold. -/
def foldSeq (s : State) : State :=
  let s1 : State := { s with sched := schedule s.blk }
  let s2 : State := { s1 with work := loadedWork s1.digest, t := 0 }
  let s3 := runRounds 80 s2
  { s3 with digest := folded s3.digest s3.work }

/-- The loop on `BI` of `HashSeq` (R139), from block index `i` on. -/
def foldBlocks : List Block → Nat → State → State
  | [], _, s => s
  | b :: rest, i, s => foldBlocks rest (i + 1) (foldSeq { s with bi := BitVec.ofNat 32 i, blk := b })

/-- `HashSeq(m)` (R139). -/
def hashSeq (m : PadInput) (s : State) : State :=
  foldBlocks (pad m) 0 { s with digest := iv, nb := BitVec.ofNat 32 (numBlocks m.bytes.length) }

end Sys2Proof.Machine
end

