-- ==== Sys2Proof/Machine/MacBuilder.lean ====
section
/-! DEFINITION. The MAC builder (42_mac.md): the pure functions of R171 to R175, then the engine's sequencing (R176). -/

namespace Sys2Proof.Machine

/-! ### Pure functions -/

/-- A hashed key followed by 44 zero bytes (R171, the branch n > 64). -/
def hashedKey (h : Vector Word 5) : Vector Byte 64 := vectorOf (digestBytes h ++ zeroBytes 44) (by simp [zeroBytes])

/-- A key of at most 64 bytes followed by zero bytes (R171, the branch n <= 64). -/
def paddedKey (k : List Byte) (h : k.length ≤ 64) : Vector Byte 64 :=
  vectorOf (k ++ zeroBytes (64 - k.length)) (by simp [zeroBytes]; omega)

/-- `NormalizeKey(k)` (R171): hashed only if strictly longer than 64 bytes (R172). -/
def normalizeKey (k : PadInput) : Vector Byte 64 :=
  if h : k.bytes.length ≤ 64 then paddedKey k.bytes h else hashedKey (sha k)

/-- `InnerInput(K0, msg) = xorb(K0, 0x36) || msg` (R173), for a message short enough to pad (log 14). -/
def innerInput (k0 : Vector Byte 64) (msg : List Byte) (h : 8 * (64 + msg.length) < 2 ^ 64) : PadInput where
  bytes := xorBytes k0.toList ipad ++ msg
  fits := by simpa [xorBytes] using h

/-- The outer input `xorb(K0, 0x5C) || inner`, 84 bytes (R175). -/
def outerInput (k0 : Vector Byte 64) (inner : Vector Byte 20) : PadInput where
  bytes := xorBytes k0.toList opad ++ inner.toList
  fits := by simp [xorBytes]

/-- `MacOf(k, msg)` (R175). -/
def macOf (k : PadInput) (msg : List Byte) (h : 8 * (64 + msg.length) < 2 ^ 64) : Vector Word 5 :=
  let k0 := normalizeKey k
  sha (outerInput k0 (tagOf (sha (innerInput k0 msg h))))

/-! ### Sequencing over the registers -/

/-- The first step of `MacSeq` (R176): `K0` from the key, hashing it on the engine if it is longer than 64 bytes. -/
def loadKey (k : PadInput) (s : State) : State :=
  if h : k.bytes.length ≤ 64 then { s with k0 := paddedKey k.bytes h }
  else
    let s1 := hashSeq k s
    { s1 with k0 := hashedKey s1.digest }

/-- `MacSeq(k, msg)` (R176): key, inner hash, `INNER`, outer hash, each after the one before. -/
def macSeq (k : PadInput) (msg : List Byte) (h : 8 * (64 + msg.length) < 2 ^ 64) (s : State) : State :=
  let s1 := loadKey k s
  let s2 := hashSeq (innerInput s1.k0 msg h) s1
  let s3 : State := { s2 with inner := tagOf s2.digest }
  hashSeq (outerInput s3.k0 s3.inner) s3

end Sys2Proof.Machine
end

