-- ==== Sys2Proof/Machine/Flags.lean ====
section
/-! DEFINITION. The fields of `STATUS` (10_state.md R24), the only flags OTPCORE has, and the cause codes (R222). -/

namespace Sys2Proof.Machine

/-- `STATUS` with bit `n` set to `b`, every other bit kept. -/
def setStatusBit (w : Word) (n : Nat) (b : Bool) : Word :=
  if b then w ||| (1#32 <<< n) else w &&& ~~~(1#32 <<< n)

/-- The field `CAUSE`, bits 7:4 (R24). -/
def statusCause (w : Word) : BitVec 4 := w.extractLsb' 4 4

/-- `STATUS` with `CAUSE` replaced, every other bit kept. -/
def setStatusCause (w : Word) (c : BitVec 4) : Word := (w &&& ~~~0x000000F0#32) ||| (c.setWidth 32 <<< 4)

/-- The cause codes of R222. -/
def causeCode : Cause → BitVec 4
  | .illegalCmd => 1
  | .msgLenRange => 2
  | .keyLenRange => 3
  | .stepZero => 4
  | .internal => 15

/-- `STATUS.BUSY`, bit 0 (R24). -/
def State.busy (s : State) : Bool := s.status.getLsbD 0

/-- `STATUS.DONE`, bit 1 (R24). -/
def State.doneFlag (s : State) : Bool := s.status.getLsbD 1

/-- `STATUS.FAULT`, bit 2 (R24). -/
def State.faulted (s : State) : Bool := s.status.getLsbD 2

/-- `STATUS.WERR`, bit 3 (R24). -/
def State.werr (s : State) : Bool := s.status.getLsbD 3

/-- `STATUS.CAUSE`, bits 7:4 (R24). -/
def State.cause (s : State) : BitVec 4 := statusCause s.status

/-- `STATUS.BUSY <- b`. -/
def State.setBusy (s : State) (b : Bool) : State := { s with status := setStatusBit s.status 0 b }

/-- `STATUS.DONE <- b`. -/
def State.setDone (s : State) (b : Bool) : State := { s with status := setStatusBit s.status 1 b }

/-- `STATUS.FAULT <- b`. -/
def State.setFault (s : State) (b : Bool) : State := { s with status := setStatusBit s.status 2 b }

/-- `STATUS.WERR <- b`. -/
def State.setWerr (s : State) (b : Bool) : State := { s with status := setStatusBit s.status 3 b }

/-- `STATUS.CAUSE <- c`. -/
def State.setCause (s : State) (c : Cause) : State := { s with status := setStatusCause s.status (causeCode c) }

end Sys2Proof.Machine
end

