-- ==== Sys2Proof/Machine/Ops.lean ====
section
/-! DEFINITION. The named operations over the register index space, the buffer cells and `STATUS`: the map (R61), reading
and storing (R41, R42), `MemRead` (R72), raising a fault (R221), the decode step (R93), completion (R44), reset (R260). -/

namespace Sys2Proof.Machine

/-! ### Buffer cells -/

/-- The byte the host last wrote to an index since reset, if it wrote one. An index that is not listed has no value: that is
what an unlisted address reads as (log 3). -/
def Memory.read : Memory → Nat → Option Byte
  | [], _ => none
  | (a, v) :: rest, i => if a = i then some v else Memory.read rest i

/-- Store a byte, keeping the indices rising. -/
def Memory.write : Memory → Nat → Byte → Memory
  | [], i, b => [(i, b)]
  | (a, v) :: rest, i, b =>
    if i < a then (i, b) :: (a, v) :: rest
    else if i = a then (i, b) :: rest
    else (a, v) :: Memory.write rest i b

/-- The canonical form: the indices rise strictly, so equal memories are equal lists. (No listed cell equals what an unlisted
one reads as, since that is no byte.) -/
def Memory.wf : Memory → Bool
  | [] => true
  | [_] => true
  | (a, _) :: (b, y) :: rest => a < b && Memory.wf ((b, y) :: rest)

/-- What the cell at a register index holds: the byte last written, or the cell's free value (R31, R260, U8; log 2). -/
def State.cell (s : State) (index : Nat) : Byte :=
  match Memory.read s.mem index with
  | some b => b
  | none => Config.freeCell s.epoch index

/-- `MemRead(a, n)`: the n cells from register index `a` on, in order (R72). -/
def memRead (s : State) (a n : Nat) : List Byte := (List.range n).map (fun j => s.cell (a + j))

@[simp] theorem memRead_length (s : State) (a n : Nat) : (memRead s a n).length = n := by simp [memRead]

/-! ### The register index space -/

/-- The first part of the map of R61, indices 0x00 to 0x0F. -/
def controlReg (i : Nat) : Option Reg :=
  match i with
  | 0x00 => some .cmd
  | 0x01 => some .status
  | 0x02 => some .msgLen
  | 0x03 => some .keyLen
  | 0x04 => some .ctrHi
  | 0x05 => some .ctrLo
  | 0x06 => some .nowHi
  | 0x07 => some .nowLo
  | 0x08 => some .stepLen
  | 0x09 => some .code
  | _ => none

/-- The map of R61: what a register index names, or nothing where it is unmapped. -/
def locate (p : Params) (i : Nat) : Option Reg :=
  if i < 0x10 then controlReg i
  else if h : 0x10 ≤ i ∧ i < 0x15 then some (.digest ⟨i - 0x10, by omega⟩)
  else if h : 0x20 ≤ i ∧ i < 0x30 then some (.blk ⟨i - 0x20, by omega⟩)
  else if keyBase ≤ i ∧ i < keyBase + p.keyCap then some (.keyCell (i - keyBase))
  else if msgBase ≤ i ∧ i < msgBase + p.msgCap then some (.msgCell (i - msgBase))
  else none

/-- The index of a register or cell (R61). -/
def regIndex : Reg → Nat
  | .cmd => 0x00
  | .status => 0x01
  | .msgLen => 0x02
  | .keyLen => 0x03
  | .ctrHi => 0x04
  | .ctrLo => 0x05
  | .nowHi => 0x06
  | .nowLo => 0x07
  | .stepLen => 0x08
  | .code => 0x09
  | .digest k => 0x10 + k.val
  | .blk j => 0x20 + j.val
  | .keyCell o => keyBase + o
  | .msgCell o => msgBase + o

/-- Whether a register is one of the instance: a cell's offset is below its buffer's capacity (R61). -/
def inInstance (p : Params) : Reg → Bool
  | .keyCell o => o < p.keyCap
  | .msgCell o => o < p.msgCap
  | .cmd => true
  | .status => true
  | .msgLen => true
  | .keyLen => true
  | .ctrHi => true
  | .ctrLo => true
  | .nowHi => true
  | .nowLo => true
  | .stepLen => true
  | .code => true
  | .digest _ => true
  | .blk _ => true

/-- Whether a register is an 8-bit buffer cell (R61). -/
def isCellReg : Reg → Bool
  | .keyCell _ => true
  | .msgCell _ => true
  | .cmd => false
  | .status => false
  | .msgLen => false
  | .keyLen => false
  | .ctrHi => false
  | .ctrLo => false
  | .nowHi => false
  | .nowLo => false
  | .stepLen => false
  | .code => false
  | .digest _ => false
  | .blk _ => false

/-- The registers a host cannot write: `STATUS`, `CODE`, `DIGEST` (R42 case 2). -/
def readOnly : Reg → Bool
  | .status => true
  | .code => true
  | .digest _ => true
  | .cmd => false
  | .msgLen => false
  | .keyLen => false
  | .ctrHi => false
  | .ctrLo => false
  | .nowHi => false
  | .nowLo => false
  | .stepLen => false
  | .blk _ => false
  | .keyCell _ => false
  | .msgCell _ => false

/-- The registers in the engine's hands while `BUSY` is 1: `DIGEST`, `BLK`, `CODE`, `CTR` (R45). -/
def engineHeld : Reg → Bool
  | .code => true
  | .ctrHi => true
  | .ctrLo => true
  | .digest _ => true
  | .blk _ => true
  | .cmd => false
  | .status => false
  | .msgLen => false
  | .keyLen => false
  | .nowHi => false
  | .nowLo => false
  | .stepLen => false
  | .keyCell _ => false
  | .msgCell _ => false

/-- The current value of a register, or of a cell zero-extended (R41, R63). -/
def regValue (s : State) : Reg → Word
  | .cmd => s.cmd
  | .status => s.status
  | .msgLen => s.msgLen
  | .keyLen => s.keyLen
  | .ctrHi => s.ctrHi
  | .ctrLo => s.ctrLo
  | .nowHi => s.nowHi
  | .nowLo => s.nowLo
  | .stepLen => s.stepLen
  | .code => s.code
  | .digest k => s.digest[k.val]
  | .blk j => s.blk[j.val]
  | .keyCell o => (s.cell (keyBase + o)).setWidth 32
  | .msgCell o => (s.cell (msgBase + o)).setWidth 32

/-- Store a host's value (R42 cases 6 and 7); a cell takes bits 7:0. A read-only register keeps its value (case 2), and `CMD`
is not stored this way: a write to it is decoded (case 5). -/
def storeReg (s : State) (r : Reg) (v : Word) : State :=
  match r with
  | .cmd => s
  | .status => s
  | .code => s
  | .digest _ => s
  | .msgLen => { s with msgLen := v }
  | .keyLen => { s with keyLen := v }
  | .ctrHi => { s with ctrHi := v }
  | .ctrLo => { s with ctrLo := v }
  | .nowHi => { s with nowHi := v }
  | .nowLo => { s with nowLo := v }
  | .stepLen => { s with stepLen := v }
  | .blk j => { s with blk := s.blk.set j.val v j.isLt }
  | .keyCell o => { s with mem := Memory.write s.mem (keyBase + o) (v.setWidth 8) }
  | .msgCell o => { s with mem := Memory.write s.mem (msgBase + o) (v.setWidth 8) }

/-! ### Taking a fault, decoding, completing, reset -/

/-- `raise Fault(c)` (R221): `STATUS.FAULT <- 1; STATUS.CAUSE <- c` and nothing further. There is no return from a fault: the
only way out is reset (R224, R229). -/
def raiseFault (c : Cause) (s : State) : State := (s.setFault true).setCause c

/-- The decode step for the command word `v` (R93), where `check` is the first check that failed, if one did. While
`FAULT` is 1 the word is dropped without a trace (R42 case 4, R224). -/
def decodeStep (v : Word) (check : Option Cause) (s : State) : State :=
  if s.faulted then s
  else
    let s1 := (({ s with cmd := v } : State).setDone false).setWerr false
    match check with
    | some c => raiseFault c s1
    | none => s1.setBusy true

/-- The end of every complete step (R44): `STATUS.BUSY <- 0; STATUS.DONE <- 1`. -/
def finish (s : State) : State := (s.setBusy false).setDone true

/-- What a command does when its turn comes. While `BUSY` is 0 its word is being decoded (R93); while `BUSY` is 1 it completes
in one atomic step (R44; logs 7 and 9). `check` is the operand check of R93 for the command; it held when the command was accepted and its operands have not
changed since (R43), so the fault below is never reached (log 12). -/
def commandStep (v : Word) (check : State → Option Cause) (complete : (s : State) → check s = none → State)
    (s : State) : Host.Outcome State Fault Refusal :=
  if s.busy then
    if h : check s = none then .next (finish (complete s h)) else .fault .operandOutOfRange
  else .next (decodeStep v (check s) s)

/-- A host write dropped because `BUSY` is 1 (R42 case 3). -/
def dropWrite (s : State) : State := s.setWerr true

/-- Reset (R260, R261): every register takes its reset value and every cell an unspecified one, a command in progress is
abandoned. The instance's parameters and what the host has still to do and has already read are no registers: they stay. -/
def applyReset (s : State) : State :=
  { State.reset with
    params := s.params
    pending := s.pending
    reads := s.reads
    draws := s.draws
    epoch := s.epoch + 1 }

end Sys2Proof.Machine
end

