-- ==== Sys2Proof/Machine/Truncator.lean ====
section
/-! DEFINITION. The counter truncator's and the time-step driver's pure functions (43_hotp.md R192, 44_totp.md R206). -/

namespace Sys2Proof.Machine

/-- `offset = tag[19] AND 0x0F` (R192). -/
def truncOffset (tag : Vector Byte 20) : Nat := (tag[19] &&& 0x0F#8).toNat

theorem truncOffset_le (tag : Vector Byte 20) : truncOffset tag ≤ 15 := by
  simp only [truncOffset, BitVec.toNat_and]
  exact Nat.and_le_right

/-- The four bytes from `offset` on, big-endian, before the mask (R191, R192). -/
def rawWindow (tag : Vector Byte 20) : Word :=
  have h := truncOffset_le tag
  be32 tag[truncOffset tag] tag[truncOffset tag + 1] tag[truncOffset tag + 2] tag[truncOffset tag + 3]

/-- `window`: bit 31 cleared (R192). -/
def truncWindow (tag : Vector Byte 20) : Word := rawWindow tag &&& windowMask

/-- `code = window mod 1_000_000`, a remainder and no mask (R192, R193). -/
def truncCode (tag : Vector Byte 20) : Nat := (truncWindow tag).toNat % codeModulus

/-- `TimeStep(now, step) = now div step` for a step that is not 0 (R206, R208). -/
def timeStep (now : BitVec 64) (step : Word) (_h : step ≠ 0) : BitVec 64 := BitVec.ofNat 64 (now.toNat / step.toNat)

end Sys2Proof.Machine
end

