-- ==== Sys2Proof/Machine/Operands.lean ====
section
/-! DEFINITION. The operands of each command, all implicit (30_encoding.md R91, R94), and the checks its decode makes on them
(R93, R222, R223). -/

namespace Sys2Proof.Machine

/-! ### Operands -/

/-- The message bytes of `HASH` and `MAC`: `MemRead(MSGBUF, MSG_LEN)` (R32, R118). -/
def messageBytes (s : State) : List Byte := memRead s msgBase s.msgLen.toNat

/-- The key bytes of `MAC`, `HOTP` and `TOTP`: `MemRead(KEYBUF, KEY_LEN)` (R31, R118). -/
def keyBytes (s : State) : List Byte := memRead s keyBase s.keyLen.toNat

/-- `CTR = CTR_HI * 2^32 + CTR_LO` (R27). -/
def counter (s : State) : BitVec 64 := joinWords s.ctrHi s.ctrLo

/-- `NOW = NOW_HI * 2^32 + NOW_LO` (R28). -/
def nowSeconds (s : State) : BitVec 64 := joinWords s.nowHi s.nowLo

theorem messageBytes_fits (s : State) : 8 * (64 + (messageBytes s).length) < 2 ^ 64 := by
  have h := s.msgLen.isLt
  simp only [messageBytes, memRead_length]
  omega

theorem keyBytes_fits (s : State) : 8 * (keyBytes s).length < 2 ^ 64 := by
  have h := s.keyLen.isLt
  simp only [keyBytes, memRead_length]
  omega

/-- The message as an input of the padder; a 32-bit length always fits (R116). -/
def messageInput (s : State) : PadInput where
  bytes := messageBytes s
  fits := by have h := messageBytes_fits s; omega

/-- The key as an input of the padder. -/
def keyInput (s : State) : PadInput where
  bytes := keyBytes s
  fits := keyBytes_fits s

/-! ### Checks -/

/-- MSG_LEN_RANGE (R93, R222). -/
def checkMsgLen (s : State) : Option Cause := if s.params.msgCap < s.msgLen.toNat then some .msgLenRange else none

/-- KEY_LEN_RANGE (R93, R222). -/
def checkKeyLen (s : State) : Option Cause := if s.params.keyCap < s.keyLen.toNat then some .keyLenRange else none

/-- STEP_ZERO (R93, R208, R222). -/
def checkStep (s : State) : Option Cause := if s.stepLen = 0 then some .stepZero else none

/-- The first failing check of two, in the order written (R93, R223). -/
def firstCause (c d : Option Cause) : Option Cause :=
  match c with
  | some x => some x
  | none => d

/-- The operand checks of each command's decode, in the order of R93. -/
def operandCheck : Instr → State → Option Cause
  | .init, _ => none
  | .compress, _ => none
  | .hash, s => checkMsgLen s
  | .mac, s => firstCause (checkMsgLen s) (checkKeyLen s)
  | .hotp, s => checkKeyLen s
  | .totp, s => firstCause (checkKeyLen s) (checkStep s)

/-- A `TOTP` that passed its checks has a step to divide by (R206, R208). -/
theorem stepLen_ne_zero_of_check {s : State} (h : operandCheck .totp s = none) : s.stepLen ≠ 0 := by
  intro h0
  simp only [operandCheck, firstCause, checkStep, h0, if_true] at h
  split at h <;> simp at h

end Sys2Proof.Machine
end

