-- ==== Sys2Proof/Machine/DigestCommands.lean ====
section
/-! DEFINITION. The commands `INIT`, `COMPRESS` and `HASH` (41_compression.md section 5). -/

namespace Sys2Proof.Machine

/-- `INIT` at complete: `DIGEST[k] <- IV[k]` (R140). -/
def completeInit (s : State) : State := { s with digest := iv }

/-- `COMPRESS` at complete: `FoldSeq()` (R141). -/
def completeCompress (s : State) : State := foldSeq s

/-- `HASH` at complete: `HashSeq(MemRead(MSGBUF, MSG_LEN))` (R142). -/
def completeHash (s : State) : State := hashSeq (messageInput s) s

/-- `INIT` (R140): no operand, no decode check. -/
def execInit (s : State) : Host.Outcome State Fault Refusal :=
  commandStep (encode .init) (operandCheck .init) (fun s _ => completeInit s) s

/-- `COMPRESS` (R141): no decode check. -/
def execCompress (s : State) : Host.Outcome State Fault Refusal :=
  commandStep (encode .compress) (operandCheck .compress) (fun s _ => completeCompress s) s

/-- `HASH` (R142): decode fault MSG_LEN_RANGE. -/
def execHash (s : State) : Host.Outcome State Fault Refusal :=
  commandStep (encode .hash) (operandCheck .hash) (fun s _ => completeHash s) s

end Sys2Proof.Machine
end

