-- ==== Sys2Proof/Machine/MacCommands.lean ====
section
/-! DEFINITION. The commands `MAC` (42_mac.md section 4), `HOTP` (43_hotp.md section 2) and `TOTP` (44_totp.md). -/

namespace Sys2Proof.Machine

/-- `MAC` at complete: `MacSeq` of the key and the message (R177). -/
def completeMac (s : State) : State := macSeq (keyInput s) (messageBytes s) (messageBytes_fits s) s

/-- `HOTP` at complete: `MacSeq` of the key and the counter's 8 bytes, then `CODE` from the tag (R195). -/
def completeHotp (s : State) : State :=
  let s1 := macSeq (keyInput s) (toBE64 (counter s)) (by simp [toBE64, toBE32]) s
  { s1 with code := BitVec.ofNat 32 (truncCode (tagOf s1.digest)) }

/-- `TOTP` at complete: `CTR` takes the time step, then exactly the complete step of `HOTP` with the new `CTR` (R207). -/
def completeTotp (s : State) (h : s.stepLen ≠ 0) : State :=
  let ts := timeStep (nowSeconds s) s.stepLen h
  completeHotp { s with ctrHi := hiWord ts, ctrLo := loWord ts }

/-- `MAC` (R177): decode faults MSG_LEN_RANGE, then KEY_LEN_RANGE. -/
def execMac (s : State) : Host.Outcome State Fault Refusal :=
  commandStep (encode .mac) (operandCheck .mac) (fun s _ => completeMac s) s

/-- `HOTP` (R195): decode fault KEY_LEN_RANGE. -/
def execHotp (s : State) : Host.Outcome State Fault Refusal :=
  commandStep (encode .hotp) (operandCheck .hotp) (fun s _ => completeHotp s) s

/-- `TOTP` (R207): decode faults KEY_LEN_RANGE, then STEP_ZERO. -/
def execTotp (s : State) : Host.Outcome State Fault Refusal :=
  commandStep (encode .totp) (operandCheck .totp) (fun s h => completeTotp s (stepLen_ne_zero_of_check h)) s

end Sys2Proof.Machine
end

