-- ==== Sys2Proof/Machine/HostPort.lean ====
section
/-! DEFINITION. The host's reads and writes (10_state.md R41, R42), the engine's turn (R44), and which comes next (R40, R75;
log 8). -/

namespace Sys2Proof.Machine

/-- The value a host read returns, and whether it is a free value: a register in the engine's hands while `BUSY` is 1 returns
a fresh one (R41, R45; log 4). -/
def readsFree (s : State) (r : Reg) : Bool := s.busy && engineHeld r

/-- `HostRead(i)` (R41): refused at an unmapped index (R64; log 11); else the value goes to the host and no register changes. -/
def hostRead (i : Nat) (s : State) : Host.Outcome State Fault Refusal :=
  match locate s.params i with
  | none => .refused (.unmappedIndex i)
  | some r =>
    if readsFree s r then
      .next { s with reads := s.reads ++ [{ index := i, value := Config.freeWord s.draws }], draws := s.draws + 1 }
    else .next { s with reads := s.reads ++ [{ index := i, value := regValue s r }] }

/-- A write to `CMD` while `BUSY` is 0 (R42 cases 4 and 5): the word is decoded; one that is no command word raises
ILLEGAL_CMD (R93, R95). -/
def writeCmd (v : Word) (s : State) : Host.Outcome State Fault Refusal :=
  match decode v with
  | .ok i => exec i s
  | .error _ => .next (decodeStep v (some .illegalCmd) s)

/-- `HostWrite(i, v)` (R42), cases 1 to 7 in their order. -/
def hostWrite (i : Nat) (v : Word) (s : State) : Host.Outcome State Fault Refusal :=
  match locate s.params i with
  | none => .refused (.unmappedIndex i)
  | some r =>
    if readOnly r then .next s
    else if s.busy then .next (dropWrite s)
    else if r = .cmd then writeCmd v s
    else .next (storeReg s r v)

/-- The engine's turn (R40, R44): if `BUSY` is 1 the complete step of the command whose opcode is `CMD[7:0]` (R23), and nothing
if it is 0. -/
def engineTurn (s : State) : Host.Outcome State Fault Refusal :=
  if s.busy then
    match opcodeInstr (opcField s.cmd).toNat with
    | some i => exec i s
    | none => .fault .noCommand
  else .next s

/-- One event. -/
def handle (e : Event) (s : State) : Host.Outcome State Fault Refusal :=
  match e with
  | .read i => hostRead i s
  | .write i v => hostWrite i v s
  | .engine => engineTurn s
  | .reset => .next (applyReset s)

/-- What happens next: the first pending event; with none pending, the engine's turn. With none pending and `BUSY` 0 the
machine rests (R46). -/
def advance (s : State) : Host.Outcome State Fault Refusal :=
  match s.pending with
  | [] => engineTurn s
  | e :: rest => handle e { s with pending := rest }

end Sys2Proof.Machine
end

