-- ==== Sys2Proof/Machine/Step.lean ====
section
/-! DEFINITION. The step, and how a command word is placed where the next step takes its command from. -/

namespace Sys2Proof.Machine

/-- One step of OTPCORE with its host (R40). -/
def step (s : State) : Host.Outcome State Fault Refusal := advance s

/-- The state in which the command word has just been accepted (R93) and it is the engine's turn: `CMD` holds the word,
`STATUS` is BUSY alone, and the engine moves before anything else pending (log 15). -/
def State.withFetchWord (s : State) (nbits w : Nat) : State :=
  { s with
    cmd := tableWord nbits w
    status := 0x00000001#32
    pending :=
      match s.pending with
      | [] => []
      | e :: rest => .engine :: e :: rest }

end Sys2Proof.Machine
end

