-- ==== Sys2Proof/Machine/Script.lean ====
section
/-! DEFINITION. The host-script notation (30_encoding.md R97 to R99) as lists of events. -/

namespace Sys2Proof.Machine

/-- `wr REG, value` (R97). -/
def wr (r : Reg) (v : Word) : Event := .write (regIndex r) v

/-- `rd REG` (R97). -/
def rd (r : Reg) : Event := .read (regIndex r)

/-- `cmd MNEMONIC` (R97). -/
def cmd (i : Instr) : List Event := [wr .cmd (encode i)]

/-- `wait` (R97): as many polls as come before the engine's turn, that turn, then the poll that reads `BUSY` = 0. The number
of polls is not fixed. -/
def wait (polls : Nat) : List Event := List.replicate polls (rd .status) ++ [.engine, rd .status]

/-- The bytes of a quoted string: its ASCII codes. A string with any other character denotes nothing (R10, U7; log 18). -/
def asciiBytes (text : List Char) : Option (List Byte) :=
  if text.all (fun c => c.toNat < 128) then some (text.map fun c => BitVec.ofNat 8 c.toNat) else none

/-- The writes of a byte sequence to the cells from index `a` on. -/
def loadCells (a : Nat) : List Byte → List Event
  | [] => []
  | b :: rest => .write a (b.setWidth 32) :: loadCells (a + 1) rest

/-- `ldmsg` (R98): the cells, then the length. -/
def ldmsg (m : List Byte) : List Event := loadCells msgBase m ++ [wr .msgLen (BitVec.ofNat 32 m.length)]

/-- `ldkey` (R98): the cells, then the length. -/
def ldkey (k : List Byte) : List Event := loadCells keyBase k ++ [wr .keyLen (BitVec.ofNat 32 k.length)]

/-- `ldctr v` (R98). -/
def ldctr (v : BitVec 64) : List Event := [wr .ctrHi (v.extractLsb' 32 32), wr .ctrLo (v.extractLsb' 0 32)]

/-- `ldnow v` (R98). -/
def ldnow (v : BitVec 64) : List Event := [wr .nowHi (v.extractLsb' 32 32), wr .nowLo (v.extractLsb' 0 32)]

/-- `ldblk w0 ... w15` (R98). -/
def ldblk (b : Vector Word 16) : List Event := (List.finRange 16).map fun j => wr (.blk j) (b[j.val])

/-- `run MNEMONIC` (R98). -/
def run (i : Instr) (polls : Nat) : List Event := cmd i ++ wait polls

/-- `rddigest` (R98). -/
def rddigest : List Event := (List.finRange 5).map fun k => rd (.digest k)

/-- The source's `hash(m)` (R99). -/
def hashScript (m : List Byte) (polls : Nat) : List Event := ldmsg m ++ run .hash polls ++ rddigest

/-- The source's `mac(k, m)` (R99). -/
def macScript (k m : List Byte) (polls : Nat) : List Event := ldkey k ++ ldmsg m ++ run .mac polls ++ rddigest

/-- The source's `hotp_code(k, c)` (R99). -/
def hotpScript (k : List Byte) (c : BitVec 64) (polls : Nat) : List Event :=
  ldkey k ++ ldctr c ++ run .hotp polls ++ [rd .code]

/-- The source's `totp_code(k, step, now)` (R99). -/
def totpScript (k : List Byte) (stepSeconds : Word) (now : BitVec 64) (polls : Nat) : List Event :=
  ldkey k ++ [wr .stepLen stepSeconds] ++ ldnow now ++ run .totp polls ++ [rd .code]

/-- The source's block-level `hash(blocks)` (R99). -/
def blocksScript (bs : List (Vector Word 16)) (polls : Nat) : List Event :=
  run .init polls ++ (bs.map fun b => ldblk b ++ run .compress polls).flatten ++ rddigest

/-- A state with a script still to be played. -/
def State.play (s : State) (script : List Event) : State := { s with pending := script }

end Sys2Proof.Machine
end

