-- ==== Sys2Proof/Safety.lean ====
section
/-! DEFINITION. What counts as a sound state and as the end of a run (10_state.md R24, R43, R46; 60_exceptions.md R222, R225). -/

namespace Sys2Proof.Machine

/-- `STATUS` as R24 and R222 allow it: bits 31:8 are 0, `BUSY` excludes `DONE` and `FAULT`, `CAUSE` is 0 without a fault and
one of the causes 1 to 4 with one. -/
def State.statusLegal (s : State) : Bool :=
  decide (s.status.toNat < 256) && !(s.busy && s.doneFlag) && !(s.busy && s.faulted) &&
    (if s.faulted then 1 ≤ s.cause.toNat && s.cause.toNat ≤ 4 else s.cause == 0)

/-- While `BUSY` is 1, `CMD` holds a command word and its operands still pass the checks of its decode (R43, R93). -/
def State.acceptedLegal (s : State) : Bool :=
  if s.busy then
    match decode s.cmd with
    | .ok i => (operandCheck i s).isNone
    | .error _ => false
  else true

/-- Whether a register index is a buffer cell of the instance (R61). -/
def isCell (p : Params) (i : Nat) : Bool :=
  match locate p i with
  | some (.keyCell _) => true
  | some (.msgCell _) => true
  | _ => false

/-- The listed cells are in canonical form and every one is a cell of the instance. -/
def State.memLegal (s : State) : Bool := Memory.wf s.mem && s.mem.all fun c => isCell s.params c.1

/-- The machine's invariant: the parameters satisfy R8, `STATUS` is legal, an accepted command is a sound one, `CODE` is at most
999999 (R30), `T` is at most 80 (R38), and the cells are canonical. -/
structure Inv (s : State) : Prop where
  params : s.params.wellFormed = true
  status : s.statusLegal = true
  accepted : s.acceptedLegal = true
  code : s.code.toNat < codeModulus
  round : s.t.toNat ≤ 80
  mem : s.memLegal = true

/-- A command from a host's `CMD` write to its completion, with no access in between (R97's `run` less its polls): the state
it leaves, if both steps answer a next state. -/
def performed (i : Instr) (s : State) : Option State :=
  match hostWrite (regIndex .cmd) (encode i) s with
  | .next t =>
    match engineTurn t with
    | .next u => some u
    | .fault _ => none
    | .refused _ => none
  | .fault _ => none
  | .refused _ => none

/-- A block-level hash driven by the host (R99): for each block in turn, `BLK` takes it and `COMPRESS` is performed. -/
def compressEach : List Block → State → Option State
  | [], s => some s
  | b :: rest, s =>
    match performed .compress { s with blk := b } with
    | some t => compressEach rest t
    | none => none

/-- The end of a run (R46): the last access has been performed and `BUSY` is 0. With `FAULT` 1 the outcome is "faulted". -/
def State.ended (s : State) : Bool := s.pending.isEmpty && !s.busy

/-- The end of a run that is a normal one (R46, R225). -/
def State.endedNormally (s : State) : Bool := s.ended && !s.faulted

end Sys2Proof.Machine
end

