-- ==== Sys2Proof/Certificates/Slice0/Obligations.lean ====
section
/-! DEFINITION. What is claimed of the model, rule by rule of spec/. Every statement is over all states or operands that meet its
hypotheses. -/

open Sys2Proof Sys2Proof.Machine

/-! ### Command words (30_encoding.md) -/

/-- R92. Each command's word decodes to it, and has `RSV` = 0. -/
def Obligations.EncodedCommandDecodesBack : Prop :=
  ∀ i : Instr, decode (encode i) = .ok i ∧ rsvField (encode i) = 0

/-- R92, R95. The decoder accepts the six words of R92 and no other, each as its own command. -/
def Obligations.OnlySixWordsDecode : Prop :=
  ∀ (v : Word) (i : Instr), decode v = .ok i ↔
    (v = 0x00000001#32 ∧ i = .init) ∨ (v = 0x00000002#32 ∧ i = .compress) ∨ (v = 0x00000003#32 ∧ i = .hash) ∨
    (v = 0x00000004#32 ∧ i = .mac) ∨ (v = 0x00000005#32 ∧ i = .hotp) ∨ (v = 0x00000006#32 ∧ i = .totp)

/-- R92, R95. Words written out from the tables: two commands, an undefined opcode, 0, and a word with `RSV` not 0. -/
def Obligations.SampleWordsDecode : Prop :=
  decode 0b00000000000000000000000000000011#32 = .ok .hash ∧
  decode 0b00000000000000000000000000000110#32 = .ok .totp ∧
  decode 0b00000000000000000000000000000111#32 = .error .opcodeUndefined ∧
  decode 0b00000000000000000000000000000000#32 = .error .opcodeUndefined ∧
  decode 0b00000000000000000000000100000011#32 = .error .reservedNotZero

/-- R92. The opcode table's words, numbered as the table numbers them, give the table's commands. -/
def Obligations.TableWordsDecode : Prop :=
  ∀ i : Instr, decodeTableWord 32 (encode i).toNat = some i

/-! ### Reset (70_reset_and_hazards.md) -/

/-- R47. The values the spec gives the registers after reset. -/
def Obligations.ResetLeavesTheListedValues : Prop :=
  State.reset.cmd = 0 ∧ State.reset.status = 0 ∧ State.reset.msgLen = 0 ∧ State.reset.keyLen = 0 ∧
  State.reset.ctrHi = 0 ∧ State.reset.ctrLo = 0 ∧ State.reset.nowHi = 0 ∧ State.reset.nowLo = 0 ∧
  State.reset.stepLen = 30 ∧ State.reset.code = 0 ∧
  State.reset.digest.toList = [0x67452301, 0xEFCDAB89, 0x98BADCFE, 0x10325476, 0xC3D2E1F0] ∧
  (∀ j : Fin 16, State.reset.blk[j.val] = 0)

/-- R260, R261. Reset in any state, a command in progress or a fault included: every host-visible register takes its reset
value and every cell is an unspecified one of a new epoch (the model's form of "unspecified", log 2). What the host has read
and has still to do, and the parameters, are no registers and stay (log 17). -/
def Obligations.ResetFromAnyState : Prop :=
  ∀ (s : State) (rest : List Event), s.pending = .reset :: rest →
    ∃ t, step s = .next t ∧
      t.cmd = 0 ∧ t.status = 0 ∧ t.msgLen = 0 ∧ t.keyLen = 0 ∧ t.ctrHi = 0 ∧ t.ctrLo = 0 ∧ t.nowHi = 0 ∧ t.nowLo = 0 ∧
      t.stepLen = 30 ∧ t.code = 0 ∧ t.digest = iv ∧ (∀ j : Fin 16, t.blk[j.val] = 0) ∧
      (∀ a, t.cell a = Config.freeCell (s.epoch + 1) a) ∧
      t.params = s.params ∧ t.pending = rest ∧ t.reads = s.reads

/-! ### The register index space and the host's accesses (20_memory.md, 10_state.md section 5) -/

/-- R61. A register is found at its index and nowhere else, and every mapped index is below 2^25 (R60). -/
def Obligations.RegisterMapIsOneToOne : Prop :=
  ∀ (p : Params), p.wellFormed = true → ∀ (i : Nat) (r : Reg),
    (locate p i = some r ↔ regIndex r = i ∧ inInstance p r = true) ∧ (locate p i = some r → i < 2 ^ 25)

/-- R61. The unmapped indices, complete. -/
def Obligations.UnmappedIndicesAreTheListedOnes : Prop :=
  ∀ (p : Params), p.wellFormed = true → ∀ i : Nat,
    locate p i = none ↔
      (0x0A ≤ i ∧ i ≤ 0x0F) ∨ (0x15 ≤ i ∧ i ≤ 0x1F) ∨ (0x30 ≤ i ∧ i ≤ 0xFFFF) ∨
      (0x00010000 + p.keyCap ≤ i ∧ i ≤ 0x00FFFFFF) ∨ 0x01000000 + p.msgCap ≤ i

/-- R64. A read or a write of an unmapped index is refused by name. -/
def Obligations.UnmappedAccessIsRefused : Prop :=
  ∀ (s : State) (i : Nat) (v : Word), locate s.params i = none →
    hostRead i s = .refused (.unmappedIndex i) ∧ hostWrite i v s = .refused (.unmappedIndex i)

/-- R41, R65. A host read returns the register's current value and changes no register: always for a register the engine does not
hold, and while `BUSY` is 0 for every register. The current value is the register's own field of the state, for a cell its
byte zero-extended (R63). -/
def Obligations.ReadReturnsTheCurrentValue : Prop :=
  (∀ (s : State) (i : Nat) (r : Reg), locate s.params i = some r → (s.busy = false ∨ engineHeld r = false) →
    hostRead i s = .next { s with reads := s.reads ++ [{ index := i, value := regValue s r }] }) ∧
  (∀ s : State,
    regValue s .cmd = s.cmd ∧ regValue s .status = s.status ∧ regValue s .msgLen = s.msgLen ∧
    regValue s .keyLen = s.keyLen ∧ regValue s .ctrHi = s.ctrHi ∧ regValue s .ctrLo = s.ctrLo ∧
    regValue s .nowHi = s.nowHi ∧ regValue s .nowLo = s.nowLo ∧ regValue s .stepLen = s.stepLen ∧
    regValue s .code = s.code ∧ (∀ k : Fin 5, regValue s (.digest k) = s.digest[k.val]) ∧
    (∀ j : Fin 16, regValue s (.blk j) = s.blk[j.val]) ∧
    (∀ o, (regValue s (.keyCell o)).toNat = (s.cell (0x00010000 + o)).toNat) ∧
    (∀ o, (regValue s (.msgCell o)).toNat = (s.cell (0x01000000 + o)).toNat))

/-- R41, R45. While `BUSY` is 1 a host read of `DIGEST`, `BLK`, `CODE` or `CTR` returns the next free value, whatever it is,
and changes no register. -/
def Obligations.ReadOfHeldRegisterIsFree : Prop :=
  ∀ (s : State) (i : Nat) (r : Reg), locate s.params i = some r → s.busy = true → engineHeld r = true →
    hostRead i s = .next { s with
      reads := s.reads ++ [{ index := i, value := Config.freeWord s.draws }]
      draws := s.draws + 1 }

/-- R42 case 2. A write to `STATUS`, `CODE` or `DIGEST` changes nothing, whatever `BUSY` and `FAULT` are. -/
def Obligations.ReadOnlyRegistersIgnoreWrites : Prop :=
  ∀ (s : State) (i : Nat) (v : Word) (r : Reg), locate s.params i = some r → readOnly r = true →
    hostWrite i v s = .next s

/-- R42 case 3, R265. While `BUSY` is 1 a write to any writable index, `CMD` included, sets `WERR` and changes nothing else. -/
def Obligations.WriteWhileBusyIsDropped : Prop :=
  ∀ (s : State) (i : Nat) (v : Word) (r : Reg), locate s.params i = some r → readOnly r = false → s.busy = true →
    ∃ t, hostWrite i v s = .next t ∧ t = { s with status := t.status } ∧ t.werr = true ∧
      ∀ m, m < 32 → m ≠ 3 → t.status.getLsbD m = s.status.getLsbD m

/-- R42 cases 6 and 7, R31, R63. While `BUSY` is 0, and whether or not `FAULT` is 1, a write to an operand register or a buffer
cell stores the value, a cell its bits 7:0, and every other register of the instance, the engine's internal registers and the model's own fields
keep their values. -/
def Obligations.OperandWriteStores : Prop :=
  ∀ (s : State) (i : Nat) (v : Word) (r : Reg), s.params.wellFormed = true → locate s.params i = some r →
    readOnly r = false → r ≠ .cmd → s.busy = false →
    ∃ t, hostWrite i v s = .next t ∧
      regValue t r = (if isCellReg r then (v.setWidth 8).setWidth 32 else v) ∧
      (∀ r', inInstance s.params r' = true → r' ≠ r → regValue t r' = regValue s r') ∧
      t.work = s.work ∧ t.sched = s.sched ∧ t.k0 = s.k0 ∧ t.inner = s.inner ∧ t.t = s.t ∧ t.bi = s.bi ∧ t.nb = s.nb ∧
      t.params = s.params ∧ t.pending = s.pending ∧ t.reads = s.reads ∧ t.draws = s.draws ∧ t.epoch = s.epoch

/-- R42 case 4, R224. While `FAULT` is 1 (and `BUSY` 0) a write to `CMD` changes nothing. -/
def Obligations.CommandWriteAfterFaultIsDropped : Prop :=
  ∀ (s : State) (v : Word), s.busy = false → s.faulted = true → hostWrite 0x00 v s = .next s

/-! ### Decode, accept, fault (30_encoding.md R93, 60_exceptions.md) -/

/-- R93, R95, R221. A word other than the six, decoded: `CMD` holds it, `FAULT` is 1 with cause 1, `DONE`, `WERR` and `BUSY` are 0,
and nothing but `CMD` and `STATUS` changes. -/
def Obligations.IllegalWordFaults : Prop :=
  ∀ (s : State) (v : Word), s.busy = false → s.faulted = false → v.toNat ∉ [1, 2, 3, 4, 5, 6] →
    ∃ t, hostWrite 0x00 v s = .next t ∧ t = { s with cmd := v, status := t.status } ∧
      t.faulted = true ∧ t.cause = 1 ∧ t.doneFlag = false ∧ t.werr = false ∧ t.busy = false

/-- R93. Decode of any word `v` while `BUSY` and `FAULT` are 0: `CMD` holds it, `DONE` and `WERR` are 0, nothing but `CMD` and
`STATUS` changes, and the first check that holds, in the rule's order, raises its cause; if none holds the command is accepted. -/
def Obligations.DecodeMakesTheChecksInOrder : Prop :=
  ∀ (s : State) (v : Word), s.busy = false → s.faulted = false →
    ∃ t, hostWrite 0x00 v s = .next t ∧ t = { s with cmd := v, status := t.status } ∧ t.doneFlag = false ∧ t.werr = false ∧
      if v.toNat / 2 ^ 8 ≠ 0 ∨ v.toNat % 2 ^ 8 ∉ [1, 2, 3, 4, 5, 6] then t.faulted = true ∧ t.cause = 1 ∧ t.busy = false
      else if v.toNat % 2 ^ 8 ∈ [3, 4] ∧ s.params.msgCap < s.msgLen.toNat then
        t.faulted = true ∧ t.cause = 2 ∧ t.busy = false
      else if v.toNat % 2 ^ 8 ∈ [4, 5, 6] ∧ s.params.keyCap < s.keyLen.toNat then
        t.faulted = true ∧ t.cause = 3 ∧ t.busy = false
      else if v.toNat % 2 ^ 8 = 6 ∧ s.stepLen = 0 then t.faulted = true ∧ t.cause = 4 ∧ t.busy = false
      else t.faulted = false ∧ t.busy = true

/-- R222 cause 2, R223. `HASH` or `MAC` decoded while `MSG_LEN > MSG_CAP` takes the fault MSG_LEN_RANGE, whatever `KEY_LEN` is. -/
def Obligations.MessageTooLongFaults : Prop :=
  ∀ (i : Instr) (s : State), i = .hash ∨ i = .mac → s.busy = false → s.faulted = false →
    s.params.msgCap < s.msgLen.toNat →
    ∃ t, exec i s = .next t ∧ t = { s with cmd := encode i, status := t.status } ∧
      t.faulted = true ∧ t.cause = 2 ∧ t.doneFlag = false ∧ t.werr = false ∧ t.busy = false

/-- R222 cause 3, R223. `MAC`, `HOTP` or `TOTP` decoded while `KEY_LEN > KEY_CAP` takes the fault KEY_LEN_RANGE, whatever `STEP`
is; `MAC` only if its message length is in range. -/
def Obligations.KeyTooLongFaults : Prop :=
  ∀ (i : Instr) (s : State), i = .mac ∨ i = .hotp ∨ i = .totp → s.busy = false → s.faulted = false →
    s.params.keyCap < s.keyLen.toNat → (i = .mac → s.msgLen.toNat ≤ s.params.msgCap) →
    ∃ t, exec i s = .next t ∧ t = { s with cmd := encode i, status := t.status } ∧
      t.faulted = true ∧ t.cause = 3 ∧ t.doneFlag = false ∧ t.werr = false ∧ t.busy = false

/-- R208, R222 cause 4. `TOTP` decoded while `STEP` is 0, the key length in range, takes the fault STEP_ZERO. -/
def Obligations.ZeroStepFaults : Prop :=
  ∀ s : State, s.busy = false → s.faulted = false → s.keyLen.toNat ≤ s.params.keyCap → s.stepLen = 0 →
    ∃ t, exec .totp s = .next t ∧ t = { s with cmd := 6, status := t.status } ∧
      t.faulted = true ∧ t.cause = 4 ∧ t.doneFlag = false ∧ t.werr = false ∧ t.busy = false

/-! ### The commands at complete -/

/-- R140. `INIT`: its word; a decode that always accepts; at complete `DIGEST` is `IV`, `BUSY` 0, `DONE` 1, every other
bit of `STATUS` is kept, and nothing else changes. -/
def Obligations.InitLoadsTheConstants : Prop :=
  encode .init = 0x00000001#32 ∧
  (∀ s : State, s.busy = false → s.faulted = false →
    ∃ t, exec .init s = .next t ∧ t.busy = true ∧ t.faulted = false) ∧
  (∀ s : State, s.busy = true →
    ∃ t, exec .init s = .next t ∧ t = { s with digest := iv, status := t.status } ∧ t.busy = false ∧ t.doneFlag = true ∧
      ∀ m, m < 32 → m ≠ 0 → m ≠ 1 → t.status.getLsbD m = s.status.getLsbD m)

/-- R141. `COMPRESS`: its word; a decode that always accepts; at complete `DIGEST` is `Compress(DIGEST, BLK)`, `BLK` is
unchanged, `BUSY` 0, `DONE` 1. -/
def Obligations.CompressFoldsTheBlock : Prop :=
  encode .compress = 0x00000002#32 ∧
  (∀ s : State, s.busy = false → s.faulted = false →
    ∃ t, exec .compress s = .next t ∧ t.busy = true ∧ t.faulted = false) ∧
  (∀ s : State, s.busy = true →
    ∃ t, exec .compress s = .next t ∧ t.digest = compress s.digest s.blk ∧ t.blk = s.blk ∧ t.busy = false ∧
      t.doneFlag = true)

/-- R142. `HASH`: its word; its decode, MSG_LEN_RANGE above `MSG_CAP` and accepted otherwise; at complete `DIGEST` is `Sha` of the
message, `BLK` its last padded block, `BUSY` 0, `DONE` 1, and the buffers, `MSG_LEN`, `CODE` and `CTR` are unchanged. -/
def Obligations.HashDigestsTheMessage : Prop :=
  encode .hash = 0x00000003#32 ∧
  (∀ s : State, s.busy = false → s.faulted = false →
    ∃ t, exec .hash s = .next t ∧
      if s.params.msgCap < s.msgLen.toNat then t.faulted = true ∧ t.cause = 2 ∧ t.busy = false
      else t.faulted = false ∧ t.busy = true) ∧
  (∀ s : State, s.busy = true → s.msgLen.toNat ≤ s.params.msgCap →
    ∃ t, exec .hash s = .next t ∧ t.digest = sha (messageInput s) ∧
      (pad (messageInput s)).getLast? = some t.blk ∧ t.busy = false ∧ t.doneFlag = true ∧
      (∀ a, t.cell a = s.cell a) ∧ t.msgLen = s.msgLen ∧ t.code = s.code ∧ t.ctrHi = s.ctrHi ∧ t.ctrLo = s.ctrLo)

/-- R177. `MAC`: its word; its decode, MSG_LEN_RANGE before KEY_LEN_RANGE and accepted otherwise; at complete `DIGEST` is
`MacOf(key, message)`, `BLK` the last outer block, `BUSY` 0, `DONE` 1, and the buffers, the lengths, `CTR`, `NOW`, `STEP` and
`CODE` are unchanged. -/
def Obligations.MacTagsTheMessage : Prop :=
  encode .mac = 0x00000004#32 ∧
  (∀ s : State, s.busy = false → s.faulted = false →
    ∃ t, exec .mac s = .next t ∧
      if s.params.msgCap < s.msgLen.toNat then t.faulted = true ∧ t.cause = 2 ∧ t.busy = false
      else if s.params.keyCap < s.keyLen.toNat then t.faulted = true ∧ t.cause = 3 ∧ t.busy = false
      else t.faulted = false ∧ t.busy = true) ∧
  (∀ s : State, s.busy = true → s.msgLen.toNat ≤ s.params.msgCap → s.keyLen.toNat ≤ s.params.keyCap →
    ∃ t, exec .mac s = .next t ∧
      t.digest = macOf (keyInput s) (messageBytes s) (messageBytes_fits s) ∧
      (pad (outerInput (normalizeKey (keyInput s))
        (tagOf (sha (innerInput (normalizeKey (keyInput s)) (messageBytes s) (messageBytes_fits s)))))).getLast? =
          some t.blk ∧
      t.busy = false ∧ t.doneFlag = true ∧
      (∀ a, t.cell a = s.cell a) ∧ t.msgLen = s.msgLen ∧ t.keyLen = s.keyLen ∧ t.ctrHi = s.ctrHi ∧ t.ctrLo = s.ctrLo ∧
      t.nowHi = s.nowHi ∧ t.nowLo = s.nowLo ∧ t.stepLen = s.stepLen ∧ t.code = s.code)

/-- R36, R37, R176. What `MAC` leaves in the engine's internal registers and in `BLK`: `K0` is the normalised key, `INNER` the inner
hash's 20 bytes, the last block's rounds are over, and `BLK` is the inner digest, then 0x80000000, nine zero words and
0x000002A0. What the internal registers hold after a command is the model's choice of R139's reference sequencing (log 6). -/
def Obligations.MacFillsKeyAndInnerRegisters : Prop :=
  ∀ s : State, s.busy = true → s.msgLen.toNat ≤ s.params.msgCap → s.keyLen.toNat ≤ s.params.keyCap →
    ∃ t, exec .mac s = .next t ∧ t.k0 = normalizeKey (keyInput s) ∧
      t.inner = tagOf (sha (innerInput (normalizeKey (keyInput s)) (messageBytes s) (messageBytes_fits s))) ∧
      t.sched = schedule t.blk ∧ t.t = 80 ∧
      t.blk.toList =
        (sha (innerInput (normalizeKey (keyInput s)) (messageBytes s) (messageBytes_fits s))).toList ++
          [0x80000000, 0, 0, 0, 0, 0, 0, 0, 0, 0, 0x000002A0]

/-- R195. `HOTP`: its word; its decode, KEY_LEN_RANGE above `KEY_CAP` and accepted otherwise; at complete `DIGEST` is the MAC of the
counter's 8 bytes under the key, `BLK` the last outer block, `CODE` the truncation of that tag, `BUSY` 0, `DONE` 1, and `CTR`,
the lengths and the buffers are unchanged. -/
def Obligations.HotpGivesTheCode : Prop :=
  encode .hotp = 0x00000005#32 ∧
  (∀ s : State, s.busy = false → s.faulted = false →
    ∃ t, exec .hotp s = .next t ∧
      if s.params.keyCap < s.keyLen.toNat then t.faulted = true ∧ t.cause = 3 ∧ t.busy = false
      else t.faulted = false ∧ t.busy = true) ∧
  (∀ s : State, s.busy = true → s.keyLen.toNat ≤ s.params.keyCap →
    ∃ t, exec .hotp s = .next t ∧
      (∀ h, t.digest = macOf (keyInput s) (toBE64 (joinWords s.ctrHi s.ctrLo)) h) ∧
      (∀ h, (pad (outerInput (normalizeKey (keyInput s))
        (tagOf (sha (innerInput (normalizeKey (keyInput s)) (toBE64 (joinWords s.ctrHi s.ctrLo)) h))))).getLast? = some t.blk) ∧
      t.code.toNat = ((rawWindow (tagOf t.digest)) &&& 0x7FFFFFFF#32).toNat % 1000000 ∧
      t.busy = false ∧ t.doneFlag = true ∧ (∀ a, t.cell a = s.cell a) ∧ t.msgLen = s.msgLen ∧ t.keyLen = s.keyLen ∧
      t.ctrHi = s.ctrHi ∧ t.ctrLo = s.ctrLo)

/-- R207. `TOTP`: its word; its decode, KEY_LEN_RANGE before STEP_ZERO and accepted otherwise; at complete `CTR` is
`NOW div STEP`, `DIGEST` the MAC of that counter's 8 bytes under the key, `BLK` the last outer block, `CODE` the truncation of
that tag, `BUSY` 0, `DONE` 1, and `NOW`, `STEP`, the lengths and the buffers are unchanged. -/
def Obligations.TotpGivesTheCode : Prop :=
  encode .totp = 0x00000006#32 ∧
  (∀ s : State, s.busy = false → s.faulted = false →
    ∃ t, exec .totp s = .next t ∧
      if s.params.keyCap < s.keyLen.toNat then t.faulted = true ∧ t.cause = 3 ∧ t.busy = false
      else if s.stepLen = 0 then t.faulted = true ∧ t.cause = 4 ∧ t.busy = false
      else t.faulted = false ∧ t.busy = true) ∧
  (∀ s : State, s.busy = true → s.keyLen.toNat ≤ s.params.keyCap → s.stepLen ≠ 0 →
    ∃ t, exec .totp s = .next t ∧
      t.ctrHi.toNat * 2 ^ 32 + t.ctrLo.toNat = (s.nowHi.toNat * 2 ^ 32 + s.nowLo.toNat) / s.stepLen.toNat ∧
      (∀ h, t.digest = macOf (keyInput s) (toBE64 (joinWords t.ctrHi t.ctrLo)) h) ∧
      (∀ h, (pad (outerInput (normalizeKey (keyInput s))
        (tagOf (sha (innerInput (normalizeKey (keyInput s)) (toBE64 (joinWords t.ctrHi t.ctrLo)) h))))).getLast? = some t.blk) ∧
      t.code.toNat = ((rawWindow (tagOf t.digest)) &&& 0x7FFFFFFF#32).toNat % 1000000 ∧
      t.busy = false ∧ t.doneFlag = true ∧ (∀ a, t.cell a = s.cell a) ∧ t.msgLen = s.msgLen ∧ t.keyLen = s.keyLen ∧
      t.nowHi = s.nowHi ∧ t.nowLo = s.nowLo ∧ t.stepLen = s.stepLen)

/-! ### Frames (30_encoding.md R94) -/

/-- R94. What `INIT`, `COMPRESS` and `HASH` leave unchanged, at decode and at complete. At complete they write `DIGEST`, `STATUS`
(`BUSY` and `DONE` only), `HASH` also `BLK`, and the engine's internal registers; at decode only `CMD` and `STATUS`. That `K0` and
`INNER` stay as they were at complete is no rule of the spec (R94 counts them among what every command may write, U9 leaves what
they then hold open) but the model's choice, log 6. -/
def Obligations.DigestCommandsFrame : Prop :=
  ∀ (i : Instr) (s t : State), i = .init ∨ i = .compress ∨ i = .hash → exec i s = .next t →
    (s.busy = false → t = { s with cmd := t.cmd, status := t.status }) ∧
    (s.busy = true → ∀ m, m < 32 → m ≠ 0 → m ≠ 1 → t.status.getLsbD m = s.status.getLsbD m) ∧
    (s.busy = true → t.cmd = s.cmd) ∧
    (i = .init ∨ i = .compress → t.blk = s.blk) ∧
    t.msgLen = s.msgLen ∧ t.keyLen = s.keyLen ∧ t.ctrHi = s.ctrHi ∧ t.ctrLo = s.ctrLo ∧ t.nowHi = s.nowHi ∧
    t.nowLo = s.nowLo ∧ t.stepLen = s.stepLen ∧ t.code = s.code ∧ t.k0 = s.k0 ∧ t.inner = s.inner ∧
    (∀ a, t.cell a = s.cell a) ∧ t.mem = s.mem ∧
    t.params = s.params ∧ t.pending = s.pending ∧ t.reads = s.reads ∧ t.draws = s.draws ∧ t.epoch = s.epoch

/-- R94. What `MAC`, `HOTP` and `TOTP` leave unchanged, at decode and at complete. At complete they write `DIGEST`, `BLK`, `STATUS`
(`BUSY` and `DONE` only) and the engine's internal registers, `HOTP` also `CODE`, `TOTP` also `CODE` and `CTR`; at decode only
`CMD` and `STATUS`. -/
def Obligations.MacCommandsFrame : Prop :=
  ∀ (i : Instr) (s t : State), i = .mac ∨ i = .hotp ∨ i = .totp → exec i s = .next t →
    (s.busy = false → t = { s with cmd := t.cmd, status := t.status }) ∧
    (s.busy = true → ∀ m, m < 32 → m ≠ 0 → m ≠ 1 → t.status.getLsbD m = s.status.getLsbD m) ∧
    (s.busy = true → t.cmd = s.cmd) ∧
    (i = .mac → t.code = s.code) ∧
    (i = .mac ∨ i = .hotp → t.ctrHi = s.ctrHi ∧ t.ctrLo = s.ctrLo) ∧
    t.msgLen = s.msgLen ∧ t.keyLen = s.keyLen ∧ t.nowHi = s.nowHi ∧ t.nowLo = s.nowLo ∧ t.stepLen = s.stepLen ∧
    (∀ a, t.cell a = s.cell a) ∧ t.mem = s.mem ∧
    t.params = s.params ∧ t.pending = s.pending ∧ t.reads = s.reads ∧ t.draws = s.draws ∧ t.epoch = s.epoch

/-! ### Commands together -/

/-- R207, the source's TOTP property. After `TOTP`, `HOTP` with the unchanged key and the `CTR` that `TOTP` left gives the same
`CODE` and `DIGEST`. -/
def Obligations.TotpEqualsHotpAtItsCounter : Prop :=
  ∀ s : State, s.busy = false → s.faulted = false → s.keyLen.toNat ≤ s.params.keyCap → s.stepLen ≠ 0 →
    ∃ t u, performed .totp s = some t ∧ performed .hotp t = some u ∧ u.code = t.code ∧ u.digest = t.digest

/-- R99, R141, R142. The block-level hash of a message's padded blocks, `INIT` and then `COMPRESS` for each with the block placed in
`BLK`, ends with `DIGEST` the function `Sha` of the message. -/
def Obligations.CompressEachBlockEqualsSha : Prop :=
  ∀ (m : PadInput) (s : State), s.busy = false → s.faulted = false →
    ∃ t u, performed .init s = some t ∧ compressEach (pad m) t = some u ∧ u.digest = sha m

/-- R94, R142. `HASH` depends on `MSG_LEN` and the cells below it only: two states that agree there get the same `DIGEST` and
`BLK`, whatever else they hold. -/
def Obligations.HashDependsOnTheMessageOnly : Prop :=
  ∀ s1 s2 : State, s1.busy = false → s1.faulted = false → s2.busy = false → s2.faulted = false →
    s1.msgLen = s2.msgLen → s1.msgLen.toNat ≤ s1.params.msgCap → s2.msgLen.toNat ≤ s2.params.msgCap →
    (∀ j, j < s1.msgLen.toNat → s1.cell (msgBase + j) = s2.cell (msgBase + j)) →
    ∃ t1 t2, performed .hash s1 = some t1 ∧ performed .hash s2 = some t2 ∧ t1.digest = t2.digest ∧ t1.blk = t2.blk

/-- R94, R177. `MAC` depends on the two lengths and the cells below them only. -/
def Obligations.MacDependsOnKeyAndMessageOnly : Prop :=
  ∀ s1 s2 : State, s1.busy = false → s1.faulted = false → s2.busy = false → s2.faulted = false →
    s1.msgLen = s2.msgLen → s1.msgLen.toNat ≤ s1.params.msgCap → s2.msgLen.toNat ≤ s2.params.msgCap →
    s1.keyLen = s2.keyLen → s1.keyLen.toNat ≤ s1.params.keyCap → s2.keyLen.toNat ≤ s2.params.keyCap →
    (∀ j, j < s1.msgLen.toNat → s1.cell (msgBase + j) = s2.cell (msgBase + j)) →
    (∀ j, j < s1.keyLen.toNat → s1.cell (keyBase + j) = s2.cell (keyBase + j)) →
    ∃ t1 t2, performed .mac s1 = some t1 ∧ performed .mac s2 = some t2 ∧ t1.digest = t2.digest ∧ t1.blk = t2.blk

/-- R196. Two `HOTP` commands with the same key, key length and counter leave the same `CODE` and `DIGEST`, and the same
`BLK` (R94), whatever else the states hold. -/
def Obligations.HotpDependsOnKeyAndCounterOnly : Prop :=
  ∀ s1 s2 : State, s1.busy = false → s1.faulted = false → s2.busy = false → s2.faulted = false →
    s1.keyLen = s2.keyLen → s1.keyLen.toNat ≤ s1.params.keyCap → s2.keyLen.toNat ≤ s2.params.keyCap →
    (∀ j, j < s1.keyLen.toNat → s1.cell (keyBase + j) = s2.cell (keyBase + j)) →
    s1.ctrHi = s2.ctrHi → s1.ctrLo = s2.ctrLo →
    ∃ t1 t2, performed .hotp s1 = some t1 ∧ performed .hotp s2 = some t2 ∧ t1.code = t2.code ∧ t1.digest = t2.digest ∧
      t1.blk = t2.blk

/-! ### The pure functions -/

/-- R131. The schedule: the block's words, then the recurrence with taps at 3, 8, 14 and 16 rotated by 1. -/
def Obligations.ScheduleFollowsTheRecurrence : Prop :=
  ∀ blk : Block,
    (∀ (i : Nat) (h : i < 16), (schedule blk)[i] = blk[i]) ∧
    (∀ (i : Nat) (_ : 16 ≤ i) (h : i < 80), (schedule blk)[i] =
      rotl32 ((schedule blk)[i - 3] ^^^ (schedule blk)[i - 8] ^^^ (schedule blk)[i - 14] ^^^ (schedule blk)[i - 16]) 1)

/-- R132. `F` per bit: choice gives c where b is 1 and d where b is 0, parity the odd count, majority at least two of three. -/
def Obligations.StageFunctionsBitByBit : Prop :=
  ∀ (b c d : Word) (k : Nat), k < 32 →
    (stageFunction 0 b c d).getLsbD k = (if b.getLsbD k then c.getLsbD k else d.getLsbD k) ∧
    (stageFunction 1 b c d).getLsbD k =
      decide ((b.getLsbD k).toNat + (c.getLsbD k).toNat + (d.getLsbD k).toNat ∈ [1, 3]) ∧
    (stageFunction 2 b c d).getLsbD k =
      decide (2 ≤ (b.getLsbD k).toNat + (c.getLsbD k).toNat + (d.getLsbD k).toNat) ∧
    (stageFunction 3 b c d).getLsbD k =
      decide ((b.getLsbD k).toNat + (c.getLsbD k).toNat + (d.getLsbD k).toNat ∈ [1, 3])

/-- R134. One round, from the values before it, the stage being `t div 20`. -/
def Obligations.RoundUpdatesTheWorkingRegisters : Prop :=
  ∀ (t : Fin 80) (r : Work) (w : Vector Word 80) (s : Fin 4), s.val = t.val / 20 →
    oneRound t r w =
      { a := rotl32 r.a 5 + stageFunction s r.b r.c r.d + r.e + w[t.val] + roundConstant s
        b := r.a, c := rotl32 r.b 30, d := r.c, e := r.d }

/-- R133, R145 d. The round constant of each round: one value for each twenty rounds. The spec takes the four values from general
knowledge (log 13). -/
def Obligations.RoundConstantsByStage : Prop :=
  ∀ t : Fin 80, roundConstant (stageOf t) =
    if t.val < 20 then 0x5A827999 else if t.val < 40 then 0x6ED9EBA1 else if t.val < 60 then 0x8F1BBCDC else 0xCA62C1D6

/-- R138. `Compress(h, blk)`: there are working registers r(0) to r(80), r(0) being h, each the round of the one before, and the
result adds r(80) to h; `Sha` folds the blocks of `Pad(m)` in order from `IV`; and its byte form has 20 bytes. -/
def Obligations.CompressIsEightyRoundsAndAFold : Prop :=
  (∀ (h : Vector Word 5) (blk : Block), ∃ r : Nat → Work,
    r 0 = { a := h[0], b := h[1], c := h[2], d := h[3], e := h[4] } ∧
    (∀ t : Fin 80, r (t.val + 1) = oneRound t (r t.val) (schedule blk)) ∧
    (compress h blk).toList =
      [h[0] + (r 80).a, h[1] + (r 80).b, h[2] + (r 80).c, h[3] + (r 80).d, h[4] + (r 80).e]) ∧
  (∀ m : PadInput,
    sha m = (pad m).foldl compress #v[0x67452301, 0xEFCDAB89, 0x98BADCFE, 0x10325476, 0xC3D2E1F0] ∧
    (digestBytes (sha m)).length = 20 ∧ digestBytes (sha m) = (sha m).toList.flatMap toBE32)

/-- R12. `ROTL32(x, n)`: the n top bits reappear as the n bottom bits, every other bit moves up by n. -/
def Obligations.RotationKeepsEveryBit : Prop :=
  ∀ (x : Word) (n k : Nat), 1 ≤ n → n ≤ 31 → k < 32 →
    (rotl32 x n).getLsbD k = if k < n then x.getLsbD (k + 32 - n) else x.getLsbD (k - n)

/-- R11. The big-endian conversions: `BE32`'s value, `ToBE32`'s four bytes, `BE32(ToBE32(v)) = v`, and `ToBE64`'s 8 bytes with
their value. -/
def Obligations.BigEndianConversions : Prop :=
  (∀ b0 b1 b2 b3 : Byte,
    (be32 b0 b1 b2 b3).toNat = b0.toNat * 2 ^ 24 + b1.toNat * 2 ^ 16 + b2.toNat * 2 ^ 8 + b3.toNat) ∧
  (∀ v : Word, toBE32 v = [v.extractLsb' 24 8, v.extractLsb' 16 8, v.extractLsb' 8 8, v.extractLsb' 0 8]) ∧
  (∀ v : Word, be32 (byteOf v 0) (byteOf v 1) (byteOf v 2) (byteOf v 3) = v) ∧
  (∀ v : BitVec 64, (toBE64 v).length = 8 ∧ (toBE64 v).foldl (fun n b => n * 256 + b.toNat) 0 = v.toNat)

/-- R111. The padded length is `64 * ((L + 8) div 64 + 1)`, the number of blocks `NB(L)`, and at least one (R112). -/
def Obligations.PaddedLengthIsWholeBlocks : Prop :=
  ∀ m : PadInput, (padBytes m).length = 64 * ((m.bytes.length + 8) / 64 + 1) ∧
    (pad m).length = (m.bytes.length + 8) / 64 + 1

/-- R113. Byte j of the padded message. -/
def Obligations.PaddedBytesOneByOne : Prop :=
  ∀ (m : PadInput) (j : Nat), j < (padBytes m).length →
    (padBytes m)[j]? =
      if j < m.bytes.length then m.bytes[j]?
      else if j = m.bytes.length then some 0x80#8
      else if j < (padBytes m).length - 8 then some 0x00#8
      else (toBE64 (BitVec.ofNat 64 (8 * m.bytes.length)))[j - ((padBytes m).length - 8)]?

/-- R114. Word j of block i is the big-endian word at byte 64 i + 4 j of the padded message. -/
def Obligations.BlockWordsArePaddedBytes : Prop :=
  ∀ (m : PadInput) (i : Nat) (hi : i < (pad m).length) (j : Fin 16),
    ∃ b0 b1 b2 b3, (padBytes m)[64 * i + 4 * j.val]? = some b0 ∧ (padBytes m)[64 * i + 4 * j.val + 1]? = some b1 ∧
      (padBytes m)[64 * i + 4 * j.val + 2]? = some b2 ∧ (padBytes m)[64 * i + 4 * j.val + 3]? = some b3 ∧
      ((pad m)[i])[j.val] = be32 b0 b1 b2 b3

/-- R114. Words 14 and 15 of the last block are the bit length. -/
def Obligations.LastBlockHoldsTheBitLength : Prop :=
  ∀ (m : PadInput) (b : Block), (pad m).getLast? = some b →
    b[14].toNat = 8 * m.bytes.length / 2 ^ 32 ∧ b[15].toNat = 8 * m.bytes.length % 2 ^ 32

/-- R33. Byte i of `TAG` is a byte of word i div 4 of `DIGEST`, most significant byte first. -/
def Obligations.TagIsTheByteViewOfDigest : Prop :=
  ∀ (h : Vector Word 5) (i : Nat) (hi : i < 20), (tagOf h)[i] = (h[i / 4]).extractLsb' (24 - 8 * (i % 4)) 8

/-- R171, R172. The normalised key: unchanged bytes and zeros up to length 64, hashed only above 64; zero bytes appended to a short
key make no difference. -/
def Obligations.NormalizedKeyForms : Prop :=
  ∀ k : PadInput,
    (k.bytes.length ≤ 64 → (normalizeKey k).toList = k.bytes ++ List.replicate (64 - k.bytes.length) 0) ∧
    (64 < k.bytes.length → (normalizeKey k).toList = digestBytes (sha k) ++ List.replicate 44 0) ∧
    (∀ (n : Nat) (k' : PadInput), k.bytes.length + n ≤ 64 → k'.bytes = k.bytes ++ List.replicate n 0 →
      normalizeKey k' = normalizeKey k)

/-- R173, R175. `MacOf(k, msg)` is `Sha` of `xorb(K0, 0x5C)` followed by the 20 bytes of the inner hash, which is `Sha` of
`xorb(K0, 0x36)` followed by the message, for every message short enough to pad. -/
def Obligations.MacOfIsTwoHashes : Prop :=
  ∀ (k : PadInput) (msg : List Byte) (h : 8 * (64 + msg.length) < 2 ^ 64), ∃ inner outer : PadInput,
    inner.bytes = (normalizeKey k).toList.map (· ^^^ 0x36#8) ++ msg ∧
    outer.bytes = (normalizeKey k).toList.map (· ^^^ 0x5C#8) ++ digestBytes (sha inner) ∧
    macOf k msg h = sha outer

/-- R68. The truncation window in terms of the digest words: a whole word, or two words straddled. -/
def Obligations.WindowStraddlesDigestWords : Prop :=
  ∀ (h : Vector Word 5) (k r : Nat) (hk : k < 4), r < 4 → truncOffset (tagOf h) = 4 * k + r →
    rawWindow (tagOf h) =
      if r = 0 then h[k] else (h[k] <<< (8 * r)) ||| (h[k + 1] >>> (32 - 8 * r))

/-- R192. The three values of `Truncate`: the offset is the low 4 bits of the last byte, the window the four bytes from there on,
big-endian, with bit 31 cleared and the other 31 bits kept, and the code its remainder by 1000000. -/
def Obligations.TruncationValues : Prop :=
  ∀ tag : Vector Byte 20, ∃ (o : Nat) (_ : o ≤ 15), o = tag[19].toNat % 16 ∧ truncOffset tag = o ∧
    (truncWindow tag).toNat = (be32 tag[o] tag[o + 1] tag[o + 2] tag[o + 3]).toNat % 2 ^ 31 ∧
    truncCode tag = (truncWindow tag).toNat % 1000000 ∧ truncCode tag ≤ 999999

/-- R206. `TimeStep` is exact floor division of the 64-bit time by a step that is not 0. -/
def Obligations.TimeStepIsFloorDivision : Prop :=
  ∀ (now : BitVec 64) (step : Word) (h : step ≠ 0), (timeStep now step h).toNat = now.toNat / step.toNat

/-! ### The whole machine -/

/-- The invariant holds at reset. Its parameters are the model's choice there (log 1), as are its `T` (log 5) and its list of cells
(log 3). -/
def Obligations.InvariantAtReset : Prop := Inv State.reset

/-- R24, R30, R43, R222. Every step keeps the machine's invariant: `STATUS` legal, an accepted command still sound, `CODE` at most
999999. Two of its clauses are the model's choice: `T` is at most 80 (R38 says so of a block's rounds, but R47 and U9 leave `T`
any value after a reset, and log 5 chose 0), and the cells are a canonical list (log 3). -/
def Obligations.StepKeepsTheInvariant : Prop := ∀ s t : State, Inv s → step s = .next t → Inv t

/-- R43, R44, R93, R227. From a state that meets the invariant no step ends in one of the model's two faults, which are log 12's
choice and no faults of the spec. -/
def Obligations.InvariantExcludesModelFaults : Prop := ∀ (s : State) (f : Fault), Inv s → step s ≠ .fault f

/-- R224. Only reset leaves a fault: any other step from a faulted state keeps `FAULT`, `CAUSE` and `CMD`, starts no command,
and leaves `DIGEST` and `CODE` as they were. -/
def Obligations.OnlyResetLeavesAFault : Prop :=
  ∀ s t : State, s.statusLegal = true → s.faulted = true → (∀ rest, s.pending ≠ .reset :: rest) → step s = .next t →
    t.faulted = true ∧ t.cause = s.cause ∧ t.cmd = s.cmd ∧ t.busy = false ∧ t.digest = s.digest ∧ t.code = s.code

/-- R42, R43, R75. While `BUSY` is 1 no host access changes an operand or a result register: it changes at most `WERR`, the record of
reads and the counter `draws` of free reads, which a read of a register in the engine's hands, and nothing else, counts up by
one (log 4). A write leaves the record of reads as it was. -/
def Obligations.HostCannotDisturbARunningCommand : Prop :=
  ∀ (s t : State) (e : Event) (rest : List Event), s.busy = true → s.pending = e :: rest → e ≠ .engine → e ≠ .reset →
    step s = .next t →
    t = { s with status := t.status, pending := rest, reads := t.reads, draws := t.draws } ∧ t.busy = true ∧
    (∀ m, m < 32 → m ≠ 3 → t.status.getLsbD m = s.status.getLsbD m) ∧
    (∀ i r, e = .read i → locate s.params i = some r → engineHeld r = true → t.draws = s.draws + 1) ∧
    (∀ i r, e = .read i → locate s.params i = some r → engineHeld r = false → t.draws = s.draws) ∧
    (∀ i v, e = .write i v → t.draws = s.draws ∧ t.reads = s.reads)

/-- R21, R30, R42. No host access changes `DIGEST` or `CODE`. -/
def Obligations.HostNeverWritesResults : Prop :=
  ∀ (s t : State) (i : Nat) (v : Word), hostRead i s = .next t ∨ hostWrite i v s = .next t →
    t.digest = s.digest ∧ t.code = s.code

/-- R44. When the engine's turn comes, an accepted command completes: `BUSY` 0 and `DONE` 1. That the turn comes where the list of
pending events says so, and with nothing pending at once, is the model's choice (log 8). -/
def Obligations.EngineTurnCompletes : Prop :=
  ∀ s : State, Inv s → s.busy = true → s.pending = [] ∨ (∃ rest, s.pending = .engine :: rest) →
    ∃ t, step s = .next t ∧ t.busy = false ∧ t.doneFlag = true

/-- R40, R44, R93. A step runs the decoded command: a pending write of a command word to `CMD` while `BUSY` is 0 is `exec` of that
command (its decode), the engine's turn while `BUSY` is 1 is `exec` of the command in `CMD` (its completion), both on the state
with that event taken off. -/
def Obligations.StepRunsTheDecodedCommand : Prop :=
  (∀ (s : State) (v : Word) (i : Instr) (rest : List Event), s.pending = .write 0x00 v :: rest → s.busy = false →
    decode v = .ok i → step s = exec i { s with pending := rest }) ∧
  (∀ (s : State) (i : Instr) (rest : List Event), s.pending = .engine :: rest → s.busy = true →
    decode s.cmd = .ok i → step s = exec i { s with pending := rest }) ∧
  (∀ (s : State) (i : Instr), s.pending = [] → s.busy = true → decode s.cmd = .ok i → step s = exec i s)

/-- R40, R41, R42, R44, R46, R260. A step performs the first pending event on the state with that event taken off: a read is
`HostRead`, a write `HostWrite`, an engine turn the engine's step, a reset the reset. With nothing pending and `BUSY` 0 the
machine rests. The list of pending events is the model's (log 8). -/
def Obligations.StepPerformsTheNextEvent : Prop :=
  (∀ (s : State) (i : Nat) (rest : List Event), s.pending = .read i :: rest →
    step s = hostRead i { s with pending := rest }) ∧
  (∀ (s : State) (i : Nat) (v : Word) (rest : List Event), s.pending = .write i v :: rest →
    step s = hostWrite i v { s with pending := rest }) ∧
  (∀ (s : State) (rest : List Event), s.pending = .engine :: rest → step s = engineTurn { s with pending := rest }) ∧
  (∀ (s : State) (rest : List Event), s.pending = .reset :: rest → step s = .next (applyReset { s with pending := rest })) ∧
  (∀ s : State, s.pending = [] → s.busy = false → step s = .next s)
end

