-- ==== Sys2Proof/Laws/Bits.lean ====
section
/-! SUPPORT. Lengths and values of the byte and word helpers (00_scope.md R10, R11). -/

namespace Sys2Proof.Machine

@[simp] theorem toBE64_length (v : BitVec 64) : (toBE64 v).length = 8 := rfl

@[simp] theorem zeroBytes_length (n : Nat) : (zeroBytes n).length = n := by simp [zeroBytes]

@[simp] theorem xorBytes_length (s : List Byte) (c : Byte) : (xorBytes s c).length = s.length := by simp [xorBytes]

@[simp] theorem vectorOf_toList {α : Type} {n : Nat} (l : List α) (h : l.length = n) : (vectorOf l h).toList = l := by
  simp [vectorOf]

theorem vectorOf_getElem {α : Type} {n : Nat} (l : List α) (h : l.length = n) (i : Nat) (hi : i < n) :
    (vectorOf l h)[i] = l[i] := by simp [vectorOf]

/-- Two registers hold `hi * 2^32 + lo` (R27). -/
theorem joinWords_toNat (hi lo : Word) : (joinWords hi lo).toNat = hi.toNat * 2 ^ 32 + lo.toNat := by
  simp only [joinWords, BitVec.toNat_append]
  rw [← Nat.shiftLeft_add_eq_or_of_lt lo.isLt, Nat.shiftLeft_eq]

/-- Splitting a 64-bit value over two registers loses nothing (R207). -/
@[simp] theorem joinWords_hiWord_loWord (v : BitVec 64) : joinWords (hiWord v) (loWord v) = v := by
  apply BitVec.eq_of_getLsbD_eq
  intro k hk
  simp only [joinWords, hiWord, loWord, BitVec.getLsbD_append, BitVec.getLsbD_extractLsb']
  split
  · simp [*]
  · have h1 : k - 32 < 32 := by omega
    have h2 : 32 + (k - 32) = k := by omega
    simp only [h1, h2, decide_true, Bool.true_and]

end Sys2Proof.Machine
end

