-- ==== Sys2Proof/Laws/Engine.lean ====
section
/-! SUPPORT. What the engine's sequencing (41_compression.md R139, 42_mac.md R176) leaves, in terms of the pure functions, and
all it touches. -/

namespace Sys2Proof.Machine

@[simp] theorem afterRounds_zero (w : Vector Word 80) (r0 : Work) (h : 0 ≤ 80) : afterRounds w r0 0 h = r0 := rfl

theorem afterRounds_succ (w : Vector Word 80) (r0 : Work) (n : Nat) (h : n + 1 ≤ 80) :
    afterRounds w r0 (n + 1) h = oneRound ⟨n, h⟩ (afterRounds w r0 n (Nat.le_of_succ_le h)) w := rfl

/-- The round loop from `T` = k on does the rounds k..79 and leaves `T` = 80. -/
theorem runRounds_from (r0 : Work) (n k : Nat) (hk : k + n = 80) (s : State) (ht : s.t = BitVec.ofNat 7 k)
    (hw : s.work = afterRounds s.sched r0 k (by omega)) :
    runRounds n s = { s with work := afterRounds s.sched r0 80 (Nat.le_refl 80), t := 80 } := by
  induction n generalizing k s with
  | zero =>
    obtain rfl : k = 80 := by omega
    simp only [runRounds, ← hw]
    rw [show (80 : BitVec 7) = s.t from ht.symm]
  | succ n ih =>
    have hlt : s.t.toNat = k := by rw [ht, BitVec.toNat_ofNat]; omega
    have h80 : s.t.toNat < 80 := by omega
    rw [runRounds, dif_pos h80, ih (k + 1) (by omega) (roundStep s h80)]
    · simp [roundStep]
    · simp only [roundStep, ht]
      apply BitVec.eq_of_toNat_eq
      simp
    · simp only [roundStep, afterRounds_succ, ← hw]
      congr 2

/-- `FoldSeq()` folds `BLK` into `DIGEST` and otherwise touches `W`, `A`..`E` and `T` only. -/
theorem foldSeq_eq (s : State) :
    foldSeq s = { s with
      sched := schedule s.blk
      work := afterRounds (schedule s.blk) (loadedWork s.digest) 80 (Nat.le_refl 80)
      t := 80
      digest := compress s.digest s.blk } := by
  simp only [foldSeq]
  rw [runRounds_from (loadedWork s.digest) 80 0 rfl _ rfl rfl]
  rfl

/-- The registers that only the engine reaches and that a block folding leaves behind: `A`..`E`, `W`, `T`, `BI`. -/
def scratchOf (s t : State) : State := { s with sched := t.sched, work := t.work, t := t.t, bi := t.bi }

/-- The block loop chains `Compress` over the blocks and leaves the last of them in `BLK`. -/
theorem foldBlocks_eq (bs : List Block) (i : Nat) (s : State) :
    foldBlocks bs i s = { scratchOf s (foldBlocks bs i s) with
      digest := bs.foldl compress s.digest
      blk := bs.getLast?.getD s.blk } := by
  induction bs generalizing i s with
  | nil => rfl
  | cons b rest ih =>
    rw [foldBlocks, ih]
    simp only [foldSeq_eq, scratchOf, List.foldl_cons, List.getLast?_cons, Option.getD_some]

theorem pad_ne_nil (m : PadInput) : pad m ≠ [] := by simp [pad, numBlocks]

/-- The last block of `Pad(m)`. -/
def lastBlock (m : PadInput) : Block := (pad m).getLast (pad_ne_nil m)

/-- `HashSeq(m)` leaves `Sha(m)` in `DIGEST` and the last padded block in `BLK` (R139), and otherwise touches `NB`, `BI`, `W`,
`A`..`E` and `T` only. -/
theorem hashSeq_eq (m : PadInput) (s : State) :
    hashSeq m s = { scratchOf s (hashSeq m s) with
      nb := BitVec.ofNat 32 (numBlocks m.bytes.length)
      digest := sha m
      blk := lastBlock m } := by
  rw [hashSeq, foldBlocks_eq]
  simp only [scratchOf, sha, hashBlocks, lastBlock, List.getLast?_eq_some_getLast (pad_ne_nil m), Option.getD_some]

@[simp] theorem hashSeq_digest (m : PadInput) (s : State) : (hashSeq m s).digest = sha m := by rw [hashSeq_eq]

@[simp] theorem hashSeq_blk (m : PadInput) (s : State) : (hashSeq m s).blk = lastBlock m := by rw [hashSeq_eq]

@[simp] theorem hashSeq_k0 (m : PadInput) (s : State) : (hashSeq m s).k0 = s.k0 := by rw [hashSeq_eq]; rfl

/-- All of the engine's internal registers, `DIGEST` and `BLK` taken from another state: what a command may write besides
`CODE` and `CTR` (R94). -/
def engineRegsOf (s t : State) : State :=
  { s with
    digest := t.digest, blk := t.blk, work := t.work, sched := t.sched, k0 := t.k0, inner := t.inner
    t := t.t, bi := t.bi, nb := t.nb }

theorem hashSeq_frame (m : PadInput) (s : State) : hashSeq m s = engineRegsOf s (hashSeq m s) := by
  rw [hashSeq_eq]; rfl

theorem loadKey_k0 (k : PadInput) (s : State) : (loadKey k s).k0 = normalizeKey k := by
  unfold loadKey normalizeKey
  split <;> simp

theorem loadKey_frame (k : PadInput) (s : State) : loadKey k s = engineRegsOf s (loadKey k s) := by
  unfold loadKey
  split
  · rfl
  · rw [hashSeq_frame]; rfl

theorem macSeq_frame (k : PadInput) (msg : List Byte) (h : 8 * (64 + msg.length) < 2 ^ 64) (s : State) :
    macSeq k msg h s = engineRegsOf s (macSeq k msg h s) := by
  unfold macSeq
  rw [hashSeq_frame, hashSeq_frame (innerInput _ _ _), loadKey_frame]
  rfl

/-- The inner hash of a MAC (R174). -/
def innerDigest (k : PadInput) (msg : List Byte) (h : 8 * (64 + msg.length) < 2 ^ 64) : Vector Word 5 :=
  sha (innerInput (normalizeKey k) msg h)

/-- `MacSeq(k, msg)` leaves `MacOf(k, msg)` in `DIGEST` (R176). -/
@[simp] theorem macSeq_digest (k : PadInput) (msg : List Byte) (h : 8 * (64 + msg.length) < 2 ^ 64) (s : State) :
    (macSeq k msg h s).digest = macOf k msg h := by
  simp [macSeq, macOf, loadKey_k0]

/-- `MacSeq(k, msg)` leaves the last outer block in `BLK` (R176). -/
@[simp] theorem macSeq_blk (k : PadInput) (msg : List Byte) (h : 8 * (64 + msg.length) < 2 ^ 64) (s : State) :
    (macSeq k msg h s).blk = lastBlock (outerInput (normalizeKey k) (tagOf (innerDigest k msg h))) := by
  simp [macSeq, innerDigest, loadKey_k0]

end Sys2Proof.Machine
end

