-- ==== Sys2Proof/Laws/Memory.lean ====
section
/-! SUPPORT. Buffer cells: a read after a write, and the canonical form (20_memory.md R72; log 3). -/

namespace Sys2Proof.Machine

/-- A read after a write to the same index gives the byte written. -/
@[simp] theorem Memory.read_write_same (m : Memory) (i : Nat) (b : Byte) :
    Memory.read (Memory.write m i b) i = some b := by
  induction m with
  | nil => simp [Memory.write, Memory.read]
  | cons c rest ih =>
    obtain ⟨a, v⟩ := c
    simp only [Memory.write]
    split
    · simp [Memory.read]
    · split
      · simp [Memory.read]
      · rename_i h1 h2
        simp [Memory.read, ih, Ne.symm h2]

/-- A write leaves every other index alone. -/
theorem Memory.read_write_other (m : Memory) (i j : Nat) (b : Byte) (h : j ≠ i) :
    Memory.read (Memory.write m i b) j = Memory.read m j := by
  induction m with
  | nil => simp [Memory.write, Memory.read, h.symm]
  | cons c rest ih =>
    obtain ⟨a, v⟩ := c
    simp only [Memory.write]
    split
    · simp [Memory.read, h.symm]
    · split
      · rename_i h2
        subst h2
        simp [Memory.read, h.symm]
      · simp [Memory.read, ih]

/-- The head of a written memory is the old head or the index written. -/
theorem Memory.write_head (m : Memory) (i : Nat) (b : Byte) :
    ∃ v rest, Memory.write m i b = (i, v) :: rest ∨
      ∃ a w r, m = (a, w) :: r ∧ a < i ∧ Memory.write m i b = (a, v) :: rest := by
  cases m with
  | nil => exact ⟨b, [], .inl rfl⟩
  | cons c rest =>
    obtain ⟨a, w⟩ := c
    by_cases h1 : i < a
    · exact ⟨b, (a, w) :: rest, .inl (by simp [Memory.write, h1])⟩
    · by_cases h2 : i = a
      · exact ⟨b, rest, .inl (by simp [Memory.write, h2])⟩
      · exact ⟨w, Memory.write rest i b, .inr ⟨a, w, rest, rfl, by omega, by simp [Memory.write, h1, h2]⟩⟩

theorem Memory.wf_tail {c : Host.Cell} {m : Memory} (h : Memory.wf (c :: m) = true) : Memory.wf m = true := by
  cases m with
  | nil => rfl
  | cons d rest => simp [Memory.wf] at h; exact h.2

/-- A write keeps the canonical form. -/
theorem Memory.wf_write {m : Memory} (h : Memory.wf m = true) (i : Nat) (b : Byte) :
    Memory.wf (Memory.write m i b) = true := by
  induction m with
  | nil => rfl
  | cons c rest ih =>
    obtain ⟨a, v⟩ := c
    simp only [Memory.write]
    split
    · rename_i h1
      simp [Memory.wf, h1, h]
    · split
      · rename_i h2
        subst h2
        cases rest with
        | nil => rfl
        | cons d r => simpa [Memory.wf] using h
      · rename_i h1 h2
        have ht := ih (Memory.wf_tail h)
        obtain ⟨w, r, hw | ⟨a', w', r', hm, hlt, hw⟩⟩ := Memory.write_head rest i b
        · rw [hw] at ht ⊢
          simp only [Memory.wf, Bool.and_eq_true, decide_eq_true_eq]
          exact ⟨by omega, ht⟩
        · rw [hw] at ht ⊢
          subst hm
          simp only [Memory.wf, Bool.and_eq_true, decide_eq_true_eq] at h ⊢
          exact ⟨h.1, ht⟩

/-- Every listed index after a write is the index written or was listed before. -/
theorem Memory.mem_write {m : Memory} {i : Nat} {b : Byte} {c : Host.Cell} (h : c ∈ Memory.write m i b) :
    c = (i, b) ∨ c ∈ m := by
  induction m with
  | nil => simpa [Memory.write] using h
  | cons d rest ih =>
    obtain ⟨a, v⟩ := d
    simp only [Memory.write] at h
    split at h
    · simpa using h
    · split at h
      · simp only [List.mem_cons] at h ⊢
        tauto
      · simp only [List.mem_cons] at h ⊢
        rcases h with h | h
        · exact .inr (.inl h)
        · rcases ih h with h | h
          · exact .inl h
          · exact .inr (.inr h)

theorem Memory.wf_reset : Memory.wf State.reset.mem = true := rfl

/-- What a cell holds after a write of it, and after a write of another. -/
theorem State.cell_write (s : State) (i j : Nat) (b : Byte) :
    State.cell { s with mem := Memory.write s.mem i b } j = if j = i then b else s.cell j := by
  by_cases h : j = i
  · subst h; simp [State.cell]
  · simp [State.cell, Memory.read_write_other _ _ _ _ h, h]

/-- `MemRead` gives the cell at offset j as its byte j (R72). -/
theorem memRead_getElem (s : State) (a n j : Nat) (h : j < (memRead s a n).length) :
    (memRead s a n)[j] = s.cell (a + j) := by simp [memRead]

/-- `MemRead` depends only on the cells it reads. -/
theorem memRead_congr {s t : State} {a n : Nat} (h : ∀ j, j < n → s.cell (a + j) = t.cell (a + j)) :
    memRead s a n = memRead t a n := by
  apply List.map_congr_left
  intro j hj
  exact h j (List.mem_range.mp hj)

end Sys2Proof.Machine
end

