-- ==== Sys2Proof/Laws/Operands.lean ====
section
/-! SUPPORT. What the operands of a command depend on (30_encoding.md R94), and when its checks hold (R93). -/

namespace Sys2Proof.Machine

/-- The message depends on `MSG_LEN` and the cells below it only. -/
theorem messageBytes_congr {s t : State} (hl : s.msgLen = t.msgLen)
    (h : ∀ j, j < s.msgLen.toNat → s.cell (msgBase + j) = t.cell (msgBase + j)) : messageBytes s = messageBytes t := by
  unfold messageBytes
  rw [← hl]
  exact memRead_congr h

/-- The key depends on `KEY_LEN` and the cells below it only. -/
theorem keyBytes_congr {s t : State} (hl : s.keyLen = t.keyLen)
    (h : ∀ j, j < s.keyLen.toNat → s.cell (keyBase + j) = t.cell (keyBase + j)) : keyBytes s = keyBytes t := by
  unfold keyBytes
  rw [← hl]
  exact memRead_congr h

theorem messageInput_congr {s t : State} (h : messageBytes s = messageBytes t) : messageInput s = messageInput t := by
  simp only [messageInput, h]

theorem keyInput_congr {s t : State} (h : keyBytes s = keyBytes t) : keyInput s = keyInput t := by
  simp only [keyInput, h]

theorem checkMsgLen_eq_none (s : State) : checkMsgLen s = none ↔ s.msgLen.toNat ≤ s.params.msgCap := by
  simp [checkMsgLen]

theorem checkKeyLen_eq_none (s : State) : checkKeyLen s = none ↔ s.keyLen.toNat ≤ s.params.keyCap := by
  simp [checkKeyLen]

theorem checkStep_eq_none (s : State) : checkStep s = none ↔ s.stepLen ≠ 0 := by simp [checkStep]

theorem firstCause_eq_none (c d : Option Cause) : firstCause c d = none ↔ c = none ∧ d = none := by
  cases c <;> simp [firstCause]

/-- When each command's checks hold (R93). -/
theorem operandCheck_eq_none (i : Instr) (s : State) :
    operandCheck i s = none ↔
      (i = .hash ∨ i = .mac → s.msgLen.toNat ≤ s.params.msgCap) ∧
      (i = .mac ∨ i = .hotp ∨ i = .totp → s.keyLen.toNat ≤ s.params.keyCap) ∧ (i = .totp → s.stepLen ≠ 0) := by
  cases i <;> simp [operandCheck, checkMsgLen_eq_none, checkKeyLen_eq_none, checkStep_eq_none, firstCause_eq_none]

/-- The checks read the lengths, `STEP` and the parameters only. -/
theorem operandCheck_congr {s t : State} (i : Instr) (h1 : s.msgLen = t.msgLen) (h2 : s.keyLen = t.keyLen)
    (h3 : s.stepLen = t.stepLen) (h4 : s.params = t.params) : operandCheck i s = operandCheck i t := by
  cases i <;> simp [operandCheck, checkMsgLen, checkKeyLen, checkStep, h1, h2, h3, h4]

end Sys2Proof.Machine
end

