-- ==== Sys2Proof/Laws/State.lean ====
section
/-! SUPPORT. What each named update of the state leaves alone, field by field, and what it does to `STATUS`. -/

namespace Sys2Proof.Machine

@[simp] theorem State.setBusy_fields (s : State) (b : Bool) :
    (s.setBusy b).cmd = s.cmd ∧ (s.setBusy b).msgLen = s.msgLen ∧ (s.setBusy b).keyLen = s.keyLen ∧
    (s.setBusy b).ctrHi = s.ctrHi ∧ (s.setBusy b).ctrLo = s.ctrLo ∧ (s.setBusy b).nowHi = s.nowHi ∧
    (s.setBusy b).nowLo = s.nowLo ∧ (s.setBusy b).stepLen = s.stepLen ∧ (s.setBusy b).code = s.code ∧
    (s.setBusy b).digest = s.digest ∧ (s.setBusy b).blk = s.blk ∧ (s.setBusy b).mem = s.mem ∧
    (s.setBusy b).work = s.work ∧ (s.setBusy b).sched = s.sched ∧ (s.setBusy b).k0 = s.k0 ∧
    (s.setBusy b).inner = s.inner ∧ (s.setBusy b).t = s.t ∧ (s.setBusy b).bi = s.bi ∧ (s.setBusy b).nb = s.nb ∧
    (s.setBusy b).params = s.params ∧ (s.setBusy b).pending = s.pending ∧ (s.setBusy b).reads = s.reads ∧
    (s.setBusy b).draws = s.draws ∧ (s.setBusy b).epoch = s.epoch :=
  ⟨rfl, rfl, rfl, rfl, rfl, rfl, rfl, rfl, rfl, rfl, rfl, rfl, rfl, rfl, rfl, rfl, rfl, rfl, rfl, rfl, rfl, rfl, rfl, rfl⟩

@[simp] theorem State.setDone_fields (s : State) (b : Bool) :
    (s.setDone b).cmd = s.cmd ∧ (s.setDone b).msgLen = s.msgLen ∧ (s.setDone b).keyLen = s.keyLen ∧
    (s.setDone b).ctrHi = s.ctrHi ∧ (s.setDone b).ctrLo = s.ctrLo ∧ (s.setDone b).nowHi = s.nowHi ∧
    (s.setDone b).nowLo = s.nowLo ∧ (s.setDone b).stepLen = s.stepLen ∧ (s.setDone b).code = s.code ∧
    (s.setDone b).digest = s.digest ∧ (s.setDone b).blk = s.blk ∧ (s.setDone b).mem = s.mem ∧
    (s.setDone b).work = s.work ∧ (s.setDone b).sched = s.sched ∧ (s.setDone b).k0 = s.k0 ∧
    (s.setDone b).inner = s.inner ∧ (s.setDone b).t = s.t ∧ (s.setDone b).bi = s.bi ∧ (s.setDone b).nb = s.nb ∧
    (s.setDone b).params = s.params ∧ (s.setDone b).pending = s.pending ∧ (s.setDone b).reads = s.reads ∧
    (s.setDone b).draws = s.draws ∧ (s.setDone b).epoch = s.epoch :=
  ⟨rfl, rfl, rfl, rfl, rfl, rfl, rfl, rfl, rfl, rfl, rfl, rfl, rfl, rfl, rfl, rfl, rfl, rfl, rfl, rfl, rfl, rfl, rfl, rfl⟩

@[simp] theorem State.setFault_fields (s : State) (b : Bool) :
    (s.setFault b).cmd = s.cmd ∧ (s.setFault b).msgLen = s.msgLen ∧ (s.setFault b).keyLen = s.keyLen ∧
    (s.setFault b).ctrHi = s.ctrHi ∧ (s.setFault b).ctrLo = s.ctrLo ∧ (s.setFault b).nowHi = s.nowHi ∧
    (s.setFault b).nowLo = s.nowLo ∧ (s.setFault b).stepLen = s.stepLen ∧ (s.setFault b).code = s.code ∧
    (s.setFault b).digest = s.digest ∧ (s.setFault b).blk = s.blk ∧ (s.setFault b).mem = s.mem ∧
    (s.setFault b).work = s.work ∧ (s.setFault b).sched = s.sched ∧ (s.setFault b).k0 = s.k0 ∧
    (s.setFault b).inner = s.inner ∧ (s.setFault b).t = s.t ∧ (s.setFault b).bi = s.bi ∧ (s.setFault b).nb = s.nb ∧
    (s.setFault b).params = s.params ∧ (s.setFault b).pending = s.pending ∧ (s.setFault b).reads = s.reads ∧
    (s.setFault b).draws = s.draws ∧ (s.setFault b).epoch = s.epoch :=
  ⟨rfl, rfl, rfl, rfl, rfl, rfl, rfl, rfl, rfl, rfl, rfl, rfl, rfl, rfl, rfl, rfl, rfl, rfl, rfl, rfl, rfl, rfl, rfl, rfl⟩

@[simp] theorem State.setWerr_fields (s : State) (b : Bool) :
    (s.setWerr b).cmd = s.cmd ∧ (s.setWerr b).msgLen = s.msgLen ∧ (s.setWerr b).keyLen = s.keyLen ∧
    (s.setWerr b).ctrHi = s.ctrHi ∧ (s.setWerr b).ctrLo = s.ctrLo ∧ (s.setWerr b).nowHi = s.nowHi ∧
    (s.setWerr b).nowLo = s.nowLo ∧ (s.setWerr b).stepLen = s.stepLen ∧ (s.setWerr b).code = s.code ∧
    (s.setWerr b).digest = s.digest ∧ (s.setWerr b).blk = s.blk ∧ (s.setWerr b).mem = s.mem ∧
    (s.setWerr b).work = s.work ∧ (s.setWerr b).sched = s.sched ∧ (s.setWerr b).k0 = s.k0 ∧
    (s.setWerr b).inner = s.inner ∧ (s.setWerr b).t = s.t ∧ (s.setWerr b).bi = s.bi ∧ (s.setWerr b).nb = s.nb ∧
    (s.setWerr b).params = s.params ∧ (s.setWerr b).pending = s.pending ∧ (s.setWerr b).reads = s.reads ∧
    (s.setWerr b).draws = s.draws ∧ (s.setWerr b).epoch = s.epoch :=
  ⟨rfl, rfl, rfl, rfl, rfl, rfl, rfl, rfl, rfl, rfl, rfl, rfl, rfl, rfl, rfl, rfl, rfl, rfl, rfl, rfl, rfl, rfl, rfl, rfl⟩

@[simp] theorem State.setCause_fields (s : State) (c : Cause) :
    (s.setCause c).cmd = s.cmd ∧ (s.setCause c).msgLen = s.msgLen ∧ (s.setCause c).keyLen = s.keyLen ∧
    (s.setCause c).ctrHi = s.ctrHi ∧ (s.setCause c).ctrLo = s.ctrLo ∧ (s.setCause c).nowHi = s.nowHi ∧
    (s.setCause c).nowLo = s.nowLo ∧ (s.setCause c).stepLen = s.stepLen ∧ (s.setCause c).code = s.code ∧
    (s.setCause c).digest = s.digest ∧ (s.setCause c).blk = s.blk ∧ (s.setCause c).mem = s.mem ∧
    (s.setCause c).work = s.work ∧ (s.setCause c).sched = s.sched ∧ (s.setCause c).k0 = s.k0 ∧
    (s.setCause c).inner = s.inner ∧ (s.setCause c).t = s.t ∧ (s.setCause c).bi = s.bi ∧ (s.setCause c).nb = s.nb ∧
    (s.setCause c).params = s.params ∧ (s.setCause c).pending = s.pending ∧ (s.setCause c).reads = s.reads ∧
    (s.setCause c).draws = s.draws ∧ (s.setCause c).epoch = s.epoch :=
  ⟨rfl, rfl, rfl, rfl, rfl, rfl, rfl, rfl, rfl, rfl, rfl, rfl, rfl, rfl, rfl, rfl, rfl, rfl, rfl, rfl, rfl, rfl, rfl, rfl⟩

@[simp] theorem raiseFault_fields (c : Cause) (s : State) :
    (raiseFault c s).cmd = s.cmd ∧ (raiseFault c s).msgLen = s.msgLen ∧ (raiseFault c s).keyLen = s.keyLen ∧
    (raiseFault c s).ctrHi = s.ctrHi ∧ (raiseFault c s).ctrLo = s.ctrLo ∧ (raiseFault c s).nowHi = s.nowHi ∧
    (raiseFault c s).nowLo = s.nowLo ∧ (raiseFault c s).stepLen = s.stepLen ∧ (raiseFault c s).code = s.code ∧
    (raiseFault c s).digest = s.digest ∧ (raiseFault c s).blk = s.blk ∧ (raiseFault c s).mem = s.mem ∧
    (raiseFault c s).work = s.work ∧ (raiseFault c s).sched = s.sched ∧ (raiseFault c s).k0 = s.k0 ∧
    (raiseFault c s).inner = s.inner ∧ (raiseFault c s).t = s.t ∧ (raiseFault c s).bi = s.bi ∧
    (raiseFault c s).nb = s.nb ∧ (raiseFault c s).params = s.params ∧ (raiseFault c s).pending = s.pending ∧
    (raiseFault c s).reads = s.reads ∧ (raiseFault c s).draws = s.draws ∧ (raiseFault c s).epoch = s.epoch :=
  ⟨rfl, rfl, rfl, rfl, rfl, rfl, rfl, rfl, rfl, rfl, rfl, rfl, rfl, rfl, rfl, rfl, rfl, rfl, rfl, rfl, rfl, rfl, rfl, rfl⟩

@[simp] theorem finish_fields (s : State) :
    (finish s).cmd = s.cmd ∧ (finish s).msgLen = s.msgLen ∧ (finish s).keyLen = s.keyLen ∧
    (finish s).ctrHi = s.ctrHi ∧ (finish s).ctrLo = s.ctrLo ∧ (finish s).nowHi = s.nowHi ∧
    (finish s).nowLo = s.nowLo ∧ (finish s).stepLen = s.stepLen ∧ (finish s).code = s.code ∧
    (finish s).digest = s.digest ∧ (finish s).blk = s.blk ∧ (finish s).mem = s.mem ∧ (finish s).work = s.work ∧
    (finish s).sched = s.sched ∧ (finish s).k0 = s.k0 ∧ (finish s).inner = s.inner ∧ (finish s).t = s.t ∧
    (finish s).bi = s.bi ∧ (finish s).nb = s.nb ∧ (finish s).params = s.params ∧ (finish s).pending = s.pending ∧
    (finish s).reads = s.reads ∧ (finish s).draws = s.draws ∧ (finish s).epoch = s.epoch :=
  ⟨rfl, rfl, rfl, rfl, rfl, rfl, rfl, rfl, rfl, rfl, rfl, rfl, rfl, rfl, rfl, rfl, rfl, rfl, rfl, rfl, rfl, rfl, rfl, rfl⟩

@[simp] theorem dropWrite_fields (s : State) :
    (dropWrite s).cmd = s.cmd ∧ (dropWrite s).msgLen = s.msgLen ∧ (dropWrite s).keyLen = s.keyLen ∧
    (dropWrite s).ctrHi = s.ctrHi ∧ (dropWrite s).ctrLo = s.ctrLo ∧ (dropWrite s).nowHi = s.nowHi ∧
    (dropWrite s).nowLo = s.nowLo ∧ (dropWrite s).stepLen = s.stepLen ∧ (dropWrite s).code = s.code ∧
    (dropWrite s).digest = s.digest ∧ (dropWrite s).blk = s.blk ∧ (dropWrite s).mem = s.mem ∧
    (dropWrite s).work = s.work ∧ (dropWrite s).sched = s.sched ∧ (dropWrite s).k0 = s.k0 ∧
    (dropWrite s).inner = s.inner ∧ (dropWrite s).t = s.t ∧ (dropWrite s).bi = s.bi ∧ (dropWrite s).nb = s.nb ∧
    (dropWrite s).params = s.params ∧ (dropWrite s).pending = s.pending ∧ (dropWrite s).reads = s.reads ∧
    (dropWrite s).draws = s.draws ∧ (dropWrite s).epoch = s.epoch :=
  ⟨rfl, rfl, rfl, rfl, rfl, rfl, rfl, rfl, rfl, rfl, rfl, rfl, rfl, rfl, rfl, rfl, rfl, rfl, rfl, rfl, rfl, rfl, rfl, rfl⟩

@[simp] theorem applyReset_fields (s : State) :
    (applyReset s).params = s.params ∧ (applyReset s).pending = s.pending ∧ (applyReset s).reads = s.reads ∧
    (applyReset s).draws = s.draws :=
  ⟨rfl, rfl, rfl, rfl⟩

/-! ### The bits of `STATUS` -/

/-- Setting one bit of `STATUS` sets that bit and no other. -/
theorem setStatusBit_getLsbD (w : Word) (n m : Nat) (b : Bool) (hm : m < 32) :
    (setStatusBit w n b).getLsbD m = if m = n then b else w.getLsbD m := by
  cases b <;> by_cases h : m = n
  · subst h; simp [setStatusBit, hm]
  · by_cases h2 : m < n
    · simp [setStatusBit, hm, h, h2]
    · have : m - n ≠ 0 := by omega
      simp [setStatusBit, hm, h, h2, this]
  · subst h; simp [setStatusBit, hm]
  · by_cases h2 : m < n
    · simp [setStatusBit, hm, h, h2]
    · have : m - n ≠ 0 := by omega
      simp [setStatusBit, hm, h, h2, this]

/-- Replacing `CAUSE` leaves the bits below it alone. -/
theorem setStatusCause_getLsbD_low (w : Word) (c : BitVec 4) (m : Nat) (hm : m < 4) :
    (setStatusCause w c).getLsbD m = w.getLsbD m := by
  have h : m = 0 ∨ m = 1 ∨ m = 2 ∨ m = 3 := by omega
  rcases h with rfl | rfl | rfl | rfl <;> simp [setStatusCause]

/-- Replacing `CAUSE` leaves the bits above it alone. -/
theorem setStatusCause_getLsbD_high (w : Word) (c : BitVec 4) (m : Nat) (h8 : 8 ≤ m) (hm : m < 32) :
    (setStatusCause w c).getLsbD m = w.getLsbD m := by
  have hmask : (240#32).getLsbD m = false := by
    simp only [BitVec.getLsbD, BitVec.toNat_ofNat]
    exact Nat.testBit_lt_two_pow (Nat.lt_of_lt_of_le (by decide : 240 % 2 ^ 32 < 2 ^ 8) (Nat.pow_le_pow_right (by decide) h8))
  have hc : c.getLsbD (m - 4) = false := BitVec.getLsbD_of_ge _ _ (by omega)
  simp only [setStatusCause, BitVec.getLsbD_or, BitVec.getLsbD_and, BitVec.getLsbD_not, BitVec.getLsbD_shiftLeft,
    BitVec.getLsbD_setWidth, hmask, hc]
  simp [hm]

/-- Reading `CAUSE` after replacing it. -/
@[simp] theorem statusCause_setStatusCause (w : Word) (c : BitVec 4) : statusCause (setStatusCause w c) = c := by
  apply BitVec.eq_of_getLsbD_eq
  intro i hi
  have h : i = 0 ∨ i = 1 ∨ i = 2 ∨ i = 3 := by omega
  rcases h with rfl | rfl | rfl | rfl <;> simp [statusCause, setStatusCause]

/-- `CAUSE` does not see the bits below it. -/
theorem statusCause_setStatusBit (w : Word) (n : Nat) (b : Bool) (hn : n < 4) :
    statusCause (setStatusBit w n b) = statusCause w := by
  apply BitVec.eq_of_getLsbD_eq
  intro i hi
  have h : 4 + i ≠ n := by omega
  simp [statusCause, hi, setStatusBit_getLsbD _ _ _ _ (show 4 + i < 32 by omega), h]

/-- A word is below 256 just when its bits from 8 on are 0. -/
theorem toNat_lt_256_iff (w : Word) : w.toNat < 256 ↔ ∀ m, 8 ≤ m → m < 32 → w.getLsbD m = false := by
  constructor
  · intro h m h8 _
    exact Nat.testBit_lt_two_pow (Nat.lt_of_lt_of_le (show w.toNat < 2 ^ 8 from h) (Nat.pow_le_pow_right (by decide) h8))
  · intro h
    apply Nat.lt_pow_two_of_testBit (n := 8)
    intro m h8
    by_cases hm : m < 32
    · exact h m h8 hm
    · exact BitVec.getLsbD_of_ge w m (by omega)

/-- Setting a bit below 8 keeps the reserved bits 0. -/
theorem setStatusBit_lt_256 {w : Word} {n : Nat} {b : Bool} (hn : n < 8) (h : w.toNat < 256) :
    (setStatusBit w n b).toNat < 256 := by
  rw [toNat_lt_256_iff] at h ⊢
  intro m h8 hm
  rw [setStatusBit_getLsbD _ _ _ _ hm, if_neg (by omega)]
  exact h m h8 hm

/-- Replacing `CAUSE` keeps the reserved bits 0. -/
theorem setStatusCause_lt_256 {w : Word} {c : BitVec 4} (h : w.toNat < 256) : (setStatusCause w c).toNat < 256 := by
  rw [toNat_lt_256_iff] at h ⊢
  intro m h8 hm
  rw [setStatusCause_getLsbD_high _ _ _ h8 hm]
  exact h m h8 hm

/-! ### The named fields of `STATUS` after each update -/

@[simp] theorem State.setBusy_status (s : State) (b : Bool) :
    (s.setBusy b).busy = b ∧ (s.setBusy b).doneFlag = s.doneFlag ∧ (s.setBusy b).faulted = s.faulted ∧
    (s.setBusy b).werr = s.werr ∧ (s.setBusy b).cause = s.cause := by
  simp (disch := decide) only [State.busy, State.doneFlag, State.faulted, State.werr, State.cause, State.setBusy,
    setStatusBit_getLsbD, statusCause_setStatusBit]
  simp

@[simp] theorem State.setDone_status (s : State) (b : Bool) :
    (s.setDone b).busy = s.busy ∧ (s.setDone b).doneFlag = b ∧ (s.setDone b).faulted = s.faulted ∧
    (s.setDone b).werr = s.werr ∧ (s.setDone b).cause = s.cause := by
  simp (disch := decide) only [State.busy, State.doneFlag, State.faulted, State.werr, State.cause, State.setDone,
    setStatusBit_getLsbD, statusCause_setStatusBit]
  simp

@[simp] theorem State.setFault_status (s : State) (b : Bool) :
    (s.setFault b).busy = s.busy ∧ (s.setFault b).doneFlag = s.doneFlag ∧ (s.setFault b).faulted = b ∧
    (s.setFault b).werr = s.werr ∧ (s.setFault b).cause = s.cause := by
  simp (disch := decide) only [State.busy, State.doneFlag, State.faulted, State.werr, State.cause, State.setFault,
    setStatusBit_getLsbD, statusCause_setStatusBit]
  simp

@[simp] theorem State.setWerr_status (s : State) (b : Bool) :
    (s.setWerr b).busy = s.busy ∧ (s.setWerr b).doneFlag = s.doneFlag ∧ (s.setWerr b).faulted = s.faulted ∧
    (s.setWerr b).werr = b ∧ (s.setWerr b).cause = s.cause := by
  simp (disch := decide) only [State.busy, State.doneFlag, State.faulted, State.werr, State.cause, State.setWerr,
    setStatusBit_getLsbD, statusCause_setStatusBit]
  simp

@[simp] theorem State.setCause_status (s : State) (c : Cause) :
    (s.setCause c).busy = s.busy ∧ (s.setCause c).doneFlag = s.doneFlag ∧ (s.setCause c).faulted = s.faulted ∧
    (s.setCause c).werr = s.werr ∧ (s.setCause c).cause = causeCode c := by
  simp (disch := decide) only [State.busy, State.doneFlag, State.faulted, State.werr, State.cause, State.setCause,
    setStatusCause_getLsbD_low, statusCause_setStatusCause, and_self]

@[simp] theorem raiseFault_status (c : Cause) (s : State) :
    (raiseFault c s).busy = s.busy ∧ (raiseFault c s).doneFlag = s.doneFlag ∧ (raiseFault c s).faulted = true ∧
    (raiseFault c s).werr = s.werr ∧ (raiseFault c s).cause = causeCode c := by simp [raiseFault]

@[simp] theorem finish_status (s : State) :
    (finish s).busy = false ∧ (finish s).doneFlag = true ∧ (finish s).faulted = s.faulted ∧
    (finish s).werr = s.werr ∧ (finish s).cause = s.cause := by simp [finish]

@[simp] theorem dropWrite_status (s : State) :
    (dropWrite s).busy = s.busy ∧ (dropWrite s).doneFlag = s.doneFlag ∧ (dropWrite s).faulted = s.faulted ∧
    (dropWrite s).werr = true ∧ (dropWrite s).cause = s.cause := by simp [dropWrite]

end Sys2Proof.Machine
end

