-- ==== Sys2Proof/Laws/Commands.lean ====
section
/-! SUPPORT. What the decode step, a command's step and the engine's turn can do (30_encoding.md R93; 10_state.md R44). -/

namespace Sys2Proof.Machine

/-! ### The decode step -/

/-- While `FAULT` is 1 a command word changes nothing (R42 case 4). -/
theorem decodeStep_of_faulted {s : State} (h : s.faulted = true) (v : Word) (c : Option Cause) : decodeStep v c s = s := by
  simp [decodeStep, h]

/-- What a decode step leaves while `FAULT` is 0 (R93): the word in `CMD`; then either the fault or `BUSY`. -/
theorem decodeStep_of_not_faulted {s : State} (h : s.faulted = false) (v : Word) (c : Option Cause) :
    decodeStep v c s =
      match c with
      | some x => raiseFault x ((({ s with cmd := v } : State).setDone false).setWerr false)
      | none => ((({ s with cmd := v } : State).setDone false).setWerr false).setBusy true := by
  cases c <;> simp [decodeStep, h]

/-- A decode step writes `CMD` and `STATUS` only (R93). -/
theorem decodeStep_frame (v : Word) (c : Option Cause) (s : State) :
    decodeStep v c s = { s with cmd := (decodeStep v c s).cmd, status := (decodeStep v c s).status } := by
  unfold decodeStep
  split
  · rfl
  · cases c <;> rfl

/-- A decode step leaves every other field. -/
@[simp] theorem decodeStep_fields (v : Word) (c : Option Cause) (s : State) :
    (decodeStep v c s).msgLen = s.msgLen ∧ (decodeStep v c s).keyLen = s.keyLen ∧ (decodeStep v c s).ctrHi = s.ctrHi ∧
    (decodeStep v c s).ctrLo = s.ctrLo ∧ (decodeStep v c s).nowHi = s.nowHi ∧ (decodeStep v c s).nowLo = s.nowLo ∧
    (decodeStep v c s).stepLen = s.stepLen ∧ (decodeStep v c s).code = s.code ∧ (decodeStep v c s).digest = s.digest ∧
    (decodeStep v c s).blk = s.blk ∧ (decodeStep v c s).mem = s.mem ∧ (decodeStep v c s).work = s.work ∧
    (decodeStep v c s).sched = s.sched ∧ (decodeStep v c s).k0 = s.k0 ∧ (decodeStep v c s).inner = s.inner ∧
    (decodeStep v c s).t = s.t ∧ (decodeStep v c s).bi = s.bi ∧ (decodeStep v c s).nb = s.nb ∧
    (decodeStep v c s).params = s.params ∧ (decodeStep v c s).pending = s.pending ∧
    (decodeStep v c s).reads = s.reads ∧ (decodeStep v c s).draws = s.draws ∧ (decodeStep v c s).epoch = s.epoch := by
  rw [decodeStep_frame]
  exact ⟨rfl, rfl, rfl, rfl, rfl, rfl, rfl, rfl, rfl, rfl, rfl, rfl, rfl, rfl, rfl, rfl, rfl, rfl, rfl, rfl, rfl, rfl, rfl⟩

@[simp] theorem decodeStep_cell (v : Word) (c : Option Cause) (s : State) (a : Nat) :
    (decodeStep v c s).cell a = s.cell a := by simp [State.cell]

/-- `STATUS` and `CMD` after a faulting decode (R221). -/
theorem decodeStep_some_status {s : State} (h : s.faulted = false) (v : Word) (c : Cause) :
    (decodeStep v (some c) s).cmd = v ∧ (decodeStep v (some c) s).busy = s.busy ∧
    (decodeStep v (some c) s).doneFlag = false ∧ (decodeStep v (some c) s).faulted = true ∧
    (decodeStep v (some c) s).werr = false ∧ (decodeStep v (some c) s).cause = causeCode c := by
  rw [decodeStep_of_not_faulted h]
  simp only [raiseFault_fields, raiseFault_status, State.setWerr_fields, State.setDone_fields, State.setWerr_status,
    State.setDone_status, true_and, and_true]
  rfl

/-- `STATUS` and `CMD` after an accepting decode (R93). -/
theorem decodeStep_none_status {s : State} (h : s.faulted = false) (v : Word) :
    (decodeStep v none s).cmd = v ∧ (decodeStep v none s).busy = true ∧ (decodeStep v none s).doneFlag = false ∧
    (decodeStep v none s).faulted = false ∧ (decodeStep v none s).werr = false ∧
    (decodeStep v none s).cause = s.cause := by
  rw [decodeStep_of_not_faulted h]
  simp only [State.setBusy_fields, State.setWerr_fields, State.setDone_fields, State.setBusy_status, State.setWerr_status,
    State.setDone_status, true_and]
  exact ⟨h, rfl⟩

/-! ### One command -/

/-- The completion of each command (R94's column "Writes"), given that its operand check holds. -/
def completion : (i : Instr) → (s : State) → operandCheck i s = none → State
  | .init, s, _ => completeInit s
  | .compress, s, _ => completeCompress s
  | .hash, s, _ => completeHash s
  | .mac, s, _ => completeMac s
  | .hotp, s, _ => completeHotp s
  | .totp, s, h => completeTotp s (stepLen_ne_zero_of_check h)

theorem exec_eq (i : Instr) (s : State) :
    exec i s = commandStep (encode i) (operandCheck i) (completion i) s := by
  cases i <;> rfl

/-- A command completes while `BUSY` is 1 and its operand check holds. -/
theorem exec_of_busy {i : Instr} {s : State} (hb : s.busy = true) (hc : operandCheck i s = none) :
    exec i s = .next (finish (completion i s hc)) := by
  rw [exec_eq, commandStep, if_pos hb, dif_pos hc]

/-- A command's word is decoded while `BUSY` is 0. -/
theorem exec_of_not_busy {s : State} (hb : s.busy = false) (i : Instr) :
    exec i s = .next (decodeStep (encode i) (operandCheck i s) s) := by
  rw [exec_eq, commandStep, if_neg (by simp [hb])]

/-- Everything a command's step can do. -/
theorem exec_cases (i : Instr) (s : State) :
    (s.busy = true ∧ ∃ hc : operandCheck i s = none, exec i s = .next (finish (completion i s hc))) ∨
    (s.busy = true ∧ operandCheck i s ≠ none ∧ exec i s = .fault .operandOutOfRange) ∨
    (s.busy = false ∧ exec i s = .next (decodeStep (encode i) (operandCheck i s) s)) := by
  cases hb : s.busy
  · exact .inr (.inr ⟨rfl, exec_of_not_busy hb i⟩)
  · by_cases hc : operandCheck i s = none
    · exact .inl ⟨rfl, hc, exec_of_busy hb hc⟩
    · refine .inr (.inl ⟨rfl, hc, ?_⟩)
      rw [exec_eq, commandStep, if_pos hb, dif_neg hc]

/-- Everything `HASH` writes at complete: `DIGEST`, `BLK` and internal registers. -/
theorem completeHash_frame (s : State) : completeHash s = engineRegsOf s (completeHash s) := by
  rw [completeHash, hashSeq_frame]
  rfl

/-- Everything `MAC` writes at complete: `DIGEST`, `BLK` and internal registers. -/
theorem completeMac_frame (s : State) : completeMac s = engineRegsOf s (completeMac s) := by
  rw [completeMac, macSeq_frame]
  rfl

/-- Everything `HOTP` writes at complete: as `MAC`, and `CODE`. -/
theorem completeHotp_frame (s : State) :
    completeHotp s = { engineRegsOf s (completeHotp s) with code := (completeHotp s).code } := by
  rw [completeHotp, macSeq_frame]
  rfl

/-- Everything `TOTP` writes at complete: as `HOTP`, and `CTR`, which takes the time step. -/
theorem completeTotp_frame (s : State) (h : s.stepLen ≠ 0) :
    completeTotp s h = { engineRegsOf s (completeTotp s h) with
      code := (completeTotp s h).code
      ctrHi := hiWord (timeStep (nowSeconds s) s.stepLen h)
      ctrLo := loWord (timeStep (nowSeconds s) s.stepLen h) } := by
  rw [completeTotp, completeHotp_frame]
  rfl

/-- Everything a completion writes: the engine's registers, `CODE`, `CTR` (R94). -/
theorem completion_frame (i : Instr) (s : State) (hc : operandCheck i s = none) :
    completion i s hc = { engineRegsOf s (completion i s hc) with
      code := (completion i s hc).code
      ctrHi := (completion i s hc).ctrHi
      ctrLo := (completion i s hc).ctrLo } := by
  cases i
  · rfl
  · simp only [completion, completeCompress, foldSeq_eq, engineRegsOf]
  · simp only [completion]; rw [completeHash_frame]; rfl
  · simp only [completion]; rw [completeMac_frame]; rfl
  · simp only [completion]; rw [completeHotp_frame]; rfl
  · simp only [completion]; rw [completeTotp_frame]; rfl

/-- No completion changes `STATUS`; `finish` does that (R44). -/
theorem completion_status (i : Instr) (s : State) (hc : operandCheck i s = none) :
    (completion i s hc).status = s.status := by rw [completion_frame]; rfl

/-- No completion changes a buffer (R31, R32). -/
theorem completion_mem (i : Instr) (s : State) (hc : operandCheck i s = none) : (completion i s hc).mem = s.mem := by
  rw [completion_frame]; rfl

/-- `HOTP` reads and leaves the same results whatever else the state holds (R195). -/
theorem completeHotp_results (s : State) :
    (completeHotp s).digest = macOf (keyInput s) (toBE64 (counter s)) (by simp [toBE64, toBE32]) ∧
    (completeHotp s).code = BitVec.ofNat 32 (truncCode (tagOf (completeHotp s).digest)) := by
  simp [completeHotp]

/-- `TOTP` leaves the results of `HOTP` at the time step (R207). -/
theorem completeTotp_results (s : State) (h : s.stepLen ≠ 0) :
    (completeTotp s h).digest =
      macOf (keyInput s) (toBE64 (timeStep (nowSeconds s) s.stepLen h)) (by simp [toBE64, toBE32]) ∧
    (completeTotp s h).code = BitVec.ofNat 32 (truncCode (tagOf (completeTotp s h).digest)) := by
  refine ⟨?_, (completeHotp_results _).2⟩
  rw [completeTotp, (completeHotp_results _).1]
  simp only [counter, joinWords_hiWord_loWord]
  rfl

/-! ### The engine's turn -/

/-- A word that decodes has the opcode of its command (R92). -/
theorem opcode_of_decode {v : Word} {i : Instr} (h : decode v = .ok i) : opcodeInstr (opcField v).toNat = some i := by
  unfold decode at h
  split at h
  · split at h
    · rename_i hj
      cases h
      exact hj
    · cases h
  · cases h

/-- Everything the engine's turn can do (R44). -/
theorem engineTurn_cases (s : State) :
    (s.busy = false ∧ engineTurn s = .next s) ∨
    (s.busy = true ∧ ∃ i, opcodeInstr (opcField s.cmd).toNat = some i ∧ engineTurn s = exec i s) ∨
    (s.busy = true ∧ opcodeInstr (opcField s.cmd).toNat = none ∧ engineTurn s = .fault .noCommand) := by
  unfold engineTurn
  cases hb : s.busy
  · exact .inl ⟨rfl, by simp⟩
  · cases hd : opcodeInstr (opcField s.cmd).toNat with
    | none => exact .inr (.inr ⟨rfl, rfl, by simp⟩)
    | some i => exact .inr (.inl ⟨rfl, i, rfl, by simp⟩)

/-- The engine's turn runs the command that `CMD` decodes to. -/
theorem engineTurn_of_decode {s : State} {i : Instr} (hb : s.busy = true) (h : decode s.cmd = .ok i) :
    engineTurn s = exec i s := by simp [engineTurn, hb, opcode_of_decode h]

end Sys2Proof.Machine
end

