-- ==== Sys2Proof/Laws/Invariant.lean ====
section
/-! SUPPORT. What `STATUS` being legal says (10_state.md R24, R222), and which updates keep the parts of the invariant. -/

namespace Sys2Proof.Machine

/-- A legal `STATUS`, part by part (R24, R222). -/
theorem State.statusLegal_iff (s : State) :
    s.statusLegal = true ↔
      s.status.toNat < 256 ∧ ¬(s.busy = true ∧ s.doneFlag = true) ∧ ¬(s.busy = true ∧ s.faulted = true) ∧
      (s.faulted = true → 1 ≤ s.cause.toNat ∧ s.cause.toNat ≤ 4) ∧ (s.faulted = false → s.cause = 0) := by
  simp only [State.statusLegal]
  cases s.faulted <;> cases s.busy <;> simp; tauto

/-- A running command is no faulted one (R24). -/
theorem State.not_faulted_of_busy {s : State} (h : s.statusLegal = true) (hb : s.busy = true) : s.faulted = false := by
  have h3 := ((State.statusLegal_iff s).mp h).2.2.1
  cases hf : s.faulted
  · rfl
  · exact absurd ⟨hb, hf⟩ h3

/-- Whether an accepted command is sound depends on `STATUS`, `CMD` and the operands that are checked only. -/
theorem State.acceptedLegal_congr {s t : State} (h1 : t.status = s.status) (h2 : t.cmd = s.cmd) (h3 : t.msgLen = s.msgLen)
    (h4 : t.keyLen = s.keyLen) (h5 : t.stepLen = s.stepLen) (h6 : t.params = s.params) :
    t.acceptedLegal = s.acceptedLegal := by
  have hb : t.busy = s.busy := by simp only [State.busy, h1]
  simp only [State.acceptedLegal, hb, h2, fun i => operandCheck_congr i h3 h4 h5 h6]

/-- A decode step leaves the operands, so it leaves their checks. -/
theorem operandCheck_decodeStep (i : Instr) (v : Word) (c : Option Cause) (s : State) :
    operandCheck i (decodeStep v c s) = operandCheck i s := by
  rw [decodeStep_frame]
  cases i <;> rfl

/-- The operand checks never give the reserved cause (R222, R226). -/
theorem operandCheck_ne_internal (i : Instr) (s : State) : operandCheck i s ≠ some .internal := by
  cases i <;> simp [operandCheck, checkMsgLen, checkKeyLen, checkStep, firstCause] <;> (repeat' split) <;> simp_all <;>
    (rintro rfl; simp_all)

/-- Completion writes bits 0 and 1 of `STATUS` only (R44). -/
theorem finish_status_bit (s : State) (m : Nat) (hm : m < 32) (h0 : m ≠ 0) (h1 : m ≠ 1) :
    (finish s).status.getLsbD m = s.status.getLsbD m := by
  simp only [finish, State.setDone, State.setBusy]
  rw [setStatusBit_getLsbD _ _ _ _ hm, if_neg h1, setStatusBit_getLsbD _ _ _ _ hm, if_neg h0]

/-- After a hash the rounds are over and the schedule is that of the last block (R139). -/
theorem hashSeq_rounds (m : PadInput) (s : State) :
    (hashSeq m s).t = 80 ∧ (hashSeq m s).sched = schedule (hashSeq m s).blk := by
  have go : ∀ (bs : List Block), bs ≠ [] → ∀ (i : Nat) (u : State),
      (foldBlocks bs i u).t = 80 ∧ (foldBlocks bs i u).sched = schedule (foldBlocks bs i u).blk := by
    intro bs
    induction bs with
    | nil => intro h; exact absurd rfl h
    | cons b rest ih =>
      intro _ i u
      cases rest with
      | nil => simp [foldBlocks, foldSeq_eq]
      | cons c r => exact ih (by simp) _ _
  exact go _ (pad_ne_nil m) _ _

end Sys2Proof.Machine
end

