-- ==== Sys2Proof/Laws/PerInstr.lean ====
section
/-! SUPPORT. The encoding of each command, one lemma per constructor (30_encoding.md R90, R92). -/

namespace Sys2Proof.Laws.CommandWord

/-- The command's word is well formed, decodes back to it, and has `RSV` = 0. -/
def Statement (i : Sys2Proof.Instr) : Prop :=
  i.wellFormed = true ∧ Sys2Proof.wellFormedWord (Sys2Proof.encode i) = true ∧
    Sys2Proof.decode (Sys2Proof.encode i) = .ok i ∧ Sys2Proof.rsvField (Sys2Proof.encode i) = 0

theorem init : Statement .init := ⟨rfl, rfl, rfl, rfl⟩

theorem compress : Statement .compress := ⟨rfl, rfl, rfl, rfl⟩

theorem hash : Statement .hash := ⟨rfl, rfl, rfl, rfl⟩

theorem mac : Statement .mac := ⟨rfl, rfl, rfl, rfl⟩

theorem hotp : Statement .hotp := ⟨rfl, rfl, rfl, rfl⟩

theorem totp : Statement .totp := ⟨rfl, rfl, rfl, rfl⟩

end Sys2Proof.Laws.CommandWord
end

