-- ==== Sys2Proof/Laws/RegMap.lean ====
section
/-! SUPPORT. The register index map (20_memory.md R61) and what the host's accesses can do (10_state.md R41, R42). -/

namespace Sys2Proof.Machine

theorem inInstance_keyCell (p : Params) (o : Nat) : inInstance p (.keyCell o) = true ↔ o < p.keyCap := by
  simp [inInstance]

theorem inInstance_msgCell (p : Params) (o : Nat) : inInstance p (.msgCell o) = true ↔ o < p.msgCap := by
  simp [inInstance]

theorem regIndex_of_controlReg {p : Params} {i : Nat} {r : Reg} (h : controlReg i = some r) :
    regIndex r = i ∧ inInstance p r = true := by
  unfold controlReg at h
  split at h <;> first | (cases h; exact ⟨rfl, rfl⟩) | cases h

/-- The map names a register at its own index. -/
theorem regIndex_of_locate {p : Params} {i : Nat} {r : Reg} (h : locate p i = some r) :
    regIndex r = i ∧ inInstance p r = true := by
  unfold locate at h
  by_cases h1 : i < 0x10
  · rw [if_pos h1] at h
    exact regIndex_of_controlReg h
  rw [if_neg h1] at h
  by_cases h2 : 0x10 ≤ i ∧ i < 0x15
  · rw [dif_pos h2] at h
    cases h
    exact ⟨Nat.add_sub_cancel' h2.1, rfl⟩
  rw [dif_neg h2] at h
  by_cases h3 : 0x20 ≤ i ∧ i < 0x30
  · rw [dif_pos h3] at h
    cases h
    exact ⟨Nat.add_sub_cancel' h3.1, rfl⟩
  rw [dif_neg h3] at h
  by_cases h4 : keyBase ≤ i ∧ i < keyBase + p.keyCap
  · rw [if_pos h4] at h
    cases h
    exact ⟨Nat.add_sub_cancel' h4.1, by simp only [inInstance, decide_eq_true_eq]; omega⟩
  rw [if_neg h4] at h
  by_cases h5 : msgBase ≤ i ∧ i < msgBase + p.msgCap
  · rw [if_pos h5] at h
    cases h
    exact ⟨Nat.add_sub_cancel' h5.1, by simp only [inInstance, decide_eq_true_eq]; omega⟩
  rw [if_neg h5] at h
  cases h

/-- Every register of an instance whose parameters satisfy R8 is found at its index. -/
theorem locate_regIndex {p : Params} (hp : p.wellFormed = true) {r : Reg} (h : inInstance p r = true) :
    locate p (regIndex r) = some r := by
  simp only [Params.wellFormed, Bool.and_eq_true, decide_eq_true_eq] at hp
  cases r with
  | digest k =>
    have hk := k.isLt
    rw [locate, if_neg (by simp only [regIndex]; omega), dif_pos (by simp only [regIndex]; omega)]
    simp [regIndex]
  | blk j =>
    have hj := j.isLt
    rw [locate, if_neg (by simp only [regIndex]; omega), dif_neg (by simp only [regIndex]; omega),
      dif_pos (by simp only [regIndex]; omega)]
    simp [regIndex]
  | keyCell o =>
    simp only [inInstance, decide_eq_true_eq] at h
    simp only [regIndex]
    have h1 : ¬ keyBase + o < 0x10 := by simp only [keyBase]; omega
    have h2 : ¬ (0x10 ≤ keyBase + o ∧ keyBase + o < 0x15) := by simp only [keyBase]; omega
    have h3 : ¬ (0x20 ≤ keyBase + o ∧ keyBase + o < 0x30) := by simp only [keyBase]; omega
    rw [locate, if_neg h1, dif_neg h2, dif_neg h3, if_pos (by omega), Nat.add_sub_cancel_left]
  | msgCell o =>
    simp only [inInstance, decide_eq_true_eq] at h
    simp only [regIndex]
    have h1 : ¬ msgBase + o < 0x10 := by simp only [msgBase]; omega
    have h2 : ¬ (0x10 ≤ msgBase + o ∧ msgBase + o < 0x15) := by simp only [msgBase]; omega
    have h3 : ¬ (0x20 ≤ msgBase + o ∧ msgBase + o < 0x30) := by simp only [msgBase]; omega
    have h4 : ¬ (keyBase ≤ msgBase + o ∧ msgBase + o < keyBase + p.keyCap) := by simp only [msgBase, keyBase]; omega
    rw [locate, if_neg h1, dif_neg h2, dif_neg h3, if_neg h4, if_pos (by omega), Nat.add_sub_cancel_left]
  | _ => rfl

/-- Every host write: refused, ignored, dropped, decoded, or stored (R42). -/
theorem hostWrite_cases (i : Nat) (v : Word) (s : State) :
    (locate s.params i = none ∧ hostWrite i v s = .refused (.unmappedIndex i)) ∨
    ∃ r, locate s.params i = some r ∧
      ((readOnly r = true ∧ hostWrite i v s = .next s) ∨
       (readOnly r = false ∧ s.busy = true ∧ hostWrite i v s = .next (dropWrite s)) ∨
       (r = .cmd ∧ s.busy = false ∧ hostWrite i v s = writeCmd v s) ∨
       (readOnly r = false ∧ r ≠ .cmd ∧ s.busy = false ∧ hostWrite i v s = .next (storeReg s r v))) := by
  unfold hostWrite
  cases hl : locate s.params i with
  | none => exact .inl ⟨rfl, rfl⟩
  | some r =>
    refine .inr ⟨r, rfl, ?_⟩
    cases hr : readOnly r
    · cases hb : s.busy
      · by_cases hc : r = .cmd
        · exact .inr (.inr (.inl ⟨hc, rfl, by simp [readOnly, hc]⟩))
        · exact .inr (.inr (.inr ⟨rfl, hc, rfl, by simp [hr, hc]⟩))
      · exact .inr (.inl ⟨rfl, rfl, by simp [hr]⟩)
    · exact .inl ⟨rfl, by simp [hr]⟩

/-- Every host read: refused, or a value to the host (R41). -/
theorem hostRead_cases (i : Nat) (s : State) :
    (locate s.params i = none ∧ hostRead i s = .refused (.unmappedIndex i)) ∨
    ∃ r, locate s.params i = some r ∧ ∃ value draws,
      hostRead i s = .next { s with reads := s.reads ++ [{ index := i, value := value }], draws := draws } := by
  unfold hostRead
  cases hl : locate s.params i with
  | none => exact .inl ⟨rfl, rfl⟩
  | some r =>
    refine .inr ⟨r, rfl, ?_⟩
    cases hf : readsFree s r
    · exact ⟨regValue s r, s.draws, by simp [hf]⟩
    · exact ⟨Config.freeWord s.draws, s.draws + 1, by simp [hf]⟩

/-- Everything a write to `CMD` does while `BUSY` is 0 is a decode step (R42 cases 4 and 5, R93). -/
theorem writeCmd_of_not_busy {s : State} (hb : s.busy = false) (v : Word) :
    ∃ w c, writeCmd v s = .next (decodeStep w c s) := by
  unfold writeCmd
  cases hd : decode v with
  | error e => exact ⟨v, some .illegalCmd, rfl⟩
  | ok i =>
    refine ⟨encode i, operandCheck i s, ?_⟩
    cases i <;> simp [exec, execInit, execCompress, execHash, execMac, execHotp, execTotp, commandStep, hb]

end Sys2Proof.Machine
end

