-- ==== Sys2Proof/Tests/Slice0.lean ====
section
/-! SUPPORT. Tests of single steps and functions with the vectors of 95_test_vectors.md (their ids stand in the docstrings), and
for every statement with hypotheses a witness that meets them (names: test_witness_…). -/

namespace Sys2Proof.Tests

open Sys2Proof Sys2Proof.Machine

/-! ### Helpers -/

/-- The parameters of section 2.7: `MSG_CAP` = 128, `KEY_CAP` = 80. -/
def caps : Params := { msgCap := 128, keyCap := 80 }

/-- Right after reset, with those parameters. -/
def fresh : State := { State.reset with params := caps }

/-- A command accepted, its completion next. -/
def running (i : Instr) (s : State) : State := { s with cmd := encode i, status := 0x00000001 }

/-- After the fault of F4. -/
def faulty : State := { fresh with cmd := 0x00000007, status := 0x00000014 }

/-- Cells from an index on. -/
def cellsFrom : Nat → List Byte → Memory
  | _, [] => []
  | a, b :: rest => (a, b) :: cellsFrom (a + 1) rest

/-- `ldmsg`. -/
def withMessage (m : List Byte) (s : State) : State :=
  { s with mem := cellsFrom msgBase m, msgLen := BitVec.ofNat 32 m.length }

/-- `ldkey`. -/
def withKey (k : List Byte) (s : State) : State :=
  { s with mem := cellsFrom keyBase k, keyLen := BitVec.ofNat 32 k.length }

/-- The 20 bytes of "12345678901234567890". -/
def digitsKey : List Byte :=
  [0x31, 0x32, 0x33, 0x34, 0x35, 0x36, 0x37, 0x38, 0x39, 0x30, 0x31, 0x32, 0x33, 0x34, 0x35, 0x36, 0x37, 0x38, 0x39, 0x30]

/-- What a next state shows. -/
def seen {α : Type} (o : Host.Outcome State Fault Refusal) (f : State → α) : Option α :=
  match o with
  | .next s => some (f s)
  | .fault _ => none
  | .refused _ => none

/-- n bytes 0x61. -/
def letters (n : Nat) (h : 8 * n < 2 ^ 64) : PadInput := { bytes := List.replicate n 0x61, fits := by simpa using h }

/-- The words of a block as a list. -/
def wordsOf (bs : List Block) : List (List Word) := bs.map (·.toList)

/-! ### WellFormed: one ill-formed term for each check -/

theorem test_wellFormedWord_refuses_reserved : wellFormedWord 0x00000103 = false := by decide

theorem test_wellFormedWord_refuses_opcode_zero : wellFormedWord 0x00000000 = false := by decide

theorem test_wellFormedWord_refuses_opcode_seven : wellFormedWord 0x00000007 = false := by decide

theorem test_wellFormedWord_accepts : wellFormedWord 0x00000001 = true ∧ wellFormedWord 0x00000006 = true := by decide

theorem test_params_refuse_msgCap :
    Params.wellFormed { msgCap := 0, keyCap := 80 } = false ∧
    Params.wellFormed { msgCap := 2 ^ 24 + 1, keyCap := 80 } = false := by decide

theorem test_params_refuse_keyCap :
    Params.wellFormed { msgCap := 128, keyCap := 0 } = false ∧
    Params.wellFormed { msgCap := 128, keyCap := 2 ^ 16 + 1 } = false := by decide

theorem test_params_accept_bounds :
    Params.wellFormed { msgCap := 1, keyCap := 1 } = true ∧
    Params.wellFormed { msgCap := 2 ^ 24, keyCap := 2 ^ 16 } = true := by decide

theorem test_event_refuses_index :
    Event.wellFormed (.read (2 ^ 25)) = false ∧ Event.wellFormed (.write (2 ^ 25) 0) = false := by decide

/-- Every command is well formed (R91), so `Instr.wellFormed` has no ill-formed term. -/
theorem test_every_command_wellFormed : ∀ i : Instr, i.wellFormed = true := by intro i; cases i <;> rfl

/-! ### Decode, bit by bit from R90 and R92 -/

theorem test_decode_init : decode 0b00000000000000000000000000000001 = .ok .init := by decide

theorem test_decode_compress : decode 0b00000000000000000000000000000010 = .ok .compress := by decide

theorem test_decode_hash : decode 0b00000000000000000000000000000011 = .ok .hash := by decide

theorem test_decode_mac : decode 0b00000000000000000000000000000100 = .ok .mac := by decide

theorem test_decode_hotp : decode 0b00000000000000000000000000000101 = .ok .hotp := by decide

theorem test_decode_totp : decode 0b00000000000000000000000000000110 = .ok .totp := by decide

/-- R95: `OPC` 0x07 and 0xFF, and a one in the top bit of `RSV`. -/
theorem test_decode_refuses :
    decode 0x00000007 = .error .opcodeUndefined ∧ decode 0x000000FF = .error .opcodeUndefined ∧
    decode 0x80000001 = .error .reservedNotZero := by decide

/-! ### Primitives (section 2.0) and the padder (section 2.1) -/

/-- A1 to A4. -/
theorem test_rotl32 :
    rotl32 0x80000000 1 = 0x00000001 ∧ rotl32 0x00000001 30 = 0x40000000 ∧ rotl32 0xFFFFFFFF 5 = 0xFFFFFFFF ∧
    rotl32 0x12345678 5 = 0x468ACF02 ∧ rotl32 0x12345678 30 = 0x048D159E := by decide

/-- A9, A10. -/
theorem test_big_endian :
    be32 0x61 0x62 0x63 0x64 = 0x61626364 ∧ toBE32 0x65800000 = [0x65, 0x80, 0x00, 0x00] ∧
    toBE64 0x0000000100000001 = [0, 0, 0, 1, 0, 0, 0, 1] := by decide

/-- A11. -/
theorem test_stageFunction :
    stageFunction 0 0xF0F0F0F0 0xCCCCCCCC 0xAAAAAAAA = 0xCACACACA ∧
    stageFunction 1 0xF0F0F0F0 0xCCCCCCCC 0xAAAAAAAA = 0x96969696 ∧
    stageFunction 2 0xF0F0F0F0 0xCCCCCCCC 0xAAAAAAAA = 0xE8E8E8E8 ∧
    stageFunction 3 0xF0F0F0F0 0xCCCCCCCC 0xAAAAAAAA = 0x96969696 := by decide

/-- R112's values of NB. -/
theorem test_numBlocks : [0, 55, 56, 63, 64, 119, 120].map numBlocks = [1, 1, 2, 2, 2, 2, 3] := by decide

set_option maxRecDepth 8000 in
/-- P3: 55 bytes, no zero byte appended. -/
theorem test_pad_55 :
    wordsOf (pad (letters 55 (by decide))) = [List.replicate 13 0x61616161 ++ [0x61616180, 0, 0x000001B8]] := by decide

set_option maxRecDepth 8000 in
/-- P4: 56 bytes, the length no longer fits the block. -/
theorem test_pad_56 :
    wordsOf (pad (letters 56 (by decide))) =
      [List.replicate 14 0x61616161 ++ [0x80000000, 0], List.replicate 15 0 ++ [0x000001C0]] := by decide

/-! ### The compression engine (section 2.3) -/

/-- The block of "abcde" (R119, P2). -/
def blockOfAbcde : Block := #v[0x61626364, 0x65800000, 0, 0, 0, 0, 0, 0, 0, 0, 0, 0, 0, 0, 0, 0x00000028]

set_option maxRecDepth 20000 in
/-- R131's example: word 16 of that block's schedule. -/
theorem test_schedule_word : (schedule blockOfAbcde)[16] = 0xC2C4C6C8 := by decide

set_option maxRecDepth 20000 in
/-- R146: round 0 of that block from `IV`. -/
theorem test_round_zero :
    oneRound 0 (loadedWork iv) (schedule blockOfAbcde) =
      { a := 0x0116FC17, b := 0x67452301, c := 0x7BF36AE2, d := 0x98BADCFE, e := 0x10325476 } := by decide

/-- The constants change at rounds 20, 40 and 60 and not before (R145 d, R133). -/
theorem test_stage_boundaries :
    [(0 : Fin 80), 19, 20, 39, 40, 59, 60, 79].map (fun t => roundConstant (stageOf t)) =
      [0x5A827999, 0x5A827999, 0x6ED9EBA1, 0x6ED9EBA1, 0x8F1BBCDC, 0x8F1BBCDC, 0xCA62C1D6, 0xCA62C1D6] := by decide

/-! ### Commands, each one step -/

/-- F17: `INIT` restores the constants, whatever `DIGEST` held, and sets `DONE`. -/
theorem test_init :
    seen (step ((({ fresh with digest := Vector.replicate 5 7 } : State)).withFetchWord 32 1)) (fun t => (t.digest, t.status)) =
      some (#v[0x67452301, 0xEFCDAB89, 0x98BADCFE, 0x10325476, 0xC3D2E1F0], 0x00000002) := by decide

set_option maxRecDepth 100000 in
/-- K3, F16: `COMPRESS` of the zero block from reset. -/
theorem test_compress_zero_block :
    seen (step (fresh.withFetchWord 32 2)) (fun t => t.digest.toList) =
      some [0x92B404E5, 0x56588CED, 0x6C1ACD4E, 0xBF053F68, 0x09F73A93] := by decide

set_option maxRecDepth 100000 in
/-- K6: a chaining state other than `IV`. -/
theorem test_compress_chained :
    (compress #v[0xE89E9A6C, 0x02E81F35, 0xD2E35AE6, 0x1C219F3C, 0x530597BF]
      #v[0, 0, 0, 0, 0, 0, 0, 0, 0, 0, 0, 0, 0, 0, 0, 0x000001C0]).toList =
      [0xC2DB330F, 0x6083854C, 0x99D4B5BF, 0xB6E8F29F, 0x201BE699] := by decide

set_option maxRecDepth 100000 in
/-- H2: `HASH` of "abc", from a `DIGEST` that it must ignore. -/
theorem test_hash_abc :
    seen (step ((withMessage [0x61, 0x62, 0x63] { fresh with digest := Vector.replicate 5 7 }).withFetchWord 32 3))
        (fun t => t.digest.toList) =
      some [0xA9993E36, 0x4706816A, 0xBA3E2571, 0x7850C26C, 0x9CD0D89D] := by decide

set_option maxRecDepth 100000 in
/-- F15, H1: `HASH` of the empty message leaves its one block in `BLK`. -/
theorem test_hash_empty :
    seen (step (fresh.withFetchWord 32 3)) (fun t => (t.digest[0], t.blk.toList)) =
      some (0xDA39A3EE, 0x80000000 :: List.replicate 15 0) := by decide

set_option maxRecDepth 100000 in
/-- M1: `MAC` with the empty key and the empty message. -/
theorem test_mac_empty :
    seen (step (fresh.withFetchWord 32 4)) (fun t => t.digest.toList) =
      some [0xFBDB1D1B, 0x18AA6C08, 0x324B7D64, 0xB71FB763, 0x70690E1D] := by decide

set_option maxRecDepth 100000 in
/-- N4: a key of 65 bytes 0x6B is hashed. -/
theorem test_normalizeKey_65 :
    ((normalizeKey { bytes := List.replicate 65 0x6B, fits := by decide }).toList).take 21 =
      [0xE5, 0xF4, 0x12, 0x11, 0x4B, 0xFB, 0xD9, 0xC0, 0xA5, 0x49, 0x66, 0xB9, 0xCB, 0xE0, 0xB4, 0xBD, 0x73, 0x56, 0x82, 0x81,
        0x00] := by decide

/-- N3: a key of 64 bytes is not. -/
theorem test_normalizeKey_64 :
    (normalizeKey { bytes := List.replicate 64 0x6B, fits := by decide }).toList = List.replicate 64 0x6B := by decide

set_option maxRecDepth 100000 in
/-- T3: `HOTP` at counter 3, where a mask in place of the remainder would give 1000000. -/
theorem test_hotp_counter_three :
    seen (step ((withKey digitsKey { fresh with ctrLo := 3 }).withFetchWord 32 5)) (fun t => (t.code, t.ctrLo)) =
      some (969429, 3) := by decide

/-- T11: offset 15, the largest; T0: a raw window with bit 31 set. -/
theorem test_truncCode :
    truncCode (tagOf #v[0xBB3FAFD7, 0xACB8DD43, 0x5428932C, 0xD0F3D019, 0xDA7DBF9F]) = 749439 ∧
    truncCode (tagOf #v[0xCC93CF18, 0x508D9493, 0x4C64B65D, 0x8BA7667F, 0xB7CDE4B0]) = 755224 := by decide

set_option maxRecDepth 100000 in
/-- O4: `TOTP` at 59 seconds, step 30, overwriting a spoiled counter. -/
theorem test_totp_at_59 :
    seen (step ((withKey digitsKey { fresh with nowLo := 59, ctrLo := 7 }).withFetchWord 32 6))
        (fun t => (t.code, t.ctrHi, t.ctrLo)) = some (287082, 0, 1) := by decide

/-- O9, O11: both halves of `NOW` and of the counter. -/
theorem test_timeStep :
    timeStep (joinWords 4 0xA817C800) 30 (by decide) = 0x0000000027BC86AA ∧
    timeStep (joinWords 0xFFFFFFFF 0xFFFFFFFF) 0xFFFFFFFF (by decide) = 0x0000000100000001 := by decide

/-! ### Decode, faults, host accesses (section 2.7) -/

/-- F2, F3: an illegal word faults, and `CMD` holds it. -/
theorem test_illegal_word :
    seen (hostWrite 0x00 0x00000000 fresh) (·.status) = some 0x00000014 ∧
    seen (hostWrite 0x00 0x00000103 fresh) (fun t => (t.status, t.cmd)) = some (0x00000014, 0x00000103) := by decide

/-- F6 and F5: `HASH` at the capacity is accepted, above it faults. -/
theorem test_hash_length :
    seen (hostWrite 0x00 3 { fresh with msgLen := 128 }) (·.status) = some 0x00000001 ∧
    seen (hostWrite 0x00 3 { fresh with msgLen := 129 }) (·.status) = some 0x00000024 := by decide

/-- F7: the lowest cause wins. -/
theorem test_mac_priority :
    seen (hostWrite 0x00 4 { fresh with msgLen := 129, keyLen := 81 }) (·.status) = some 0x00000024 := by decide

/-- F8: cause 3 before cause 4. -/
theorem test_totp_priority :
    seen (hostWrite 0x00 6 { fresh with keyLen := 81, stepLen := 0 }) (·.status) = some 0x00000034 := by decide

/-- F9: a zero step; then the `INIT` word is dropped and `CMD` still reads 6. -/
theorem test_zero_step_sticks :
    seen (hostWrite 0x00 6 { fresh with stepLen := 0 }) (·.status) = some 0x00000044 ∧
    seen (hostWrite 0x00 1 { fresh with stepLen := 0, cmd := 6, status := 0x00000044 }) (fun t => (t.status, t.cmd)) =
      some (0x00000044, 6) := by decide

/-- F11: a write during `BUSY` is dropped and sets `WERR`; the next decode clears `DONE` and `WERR`. -/
theorem test_write_while_busy :
    seen (hostWrite 0x02 5 (running .hash { fresh with msgLen := 3 })) (fun t => (t.status, t.msgLen)) =
      some (0x00000009, 3) ∧
    seen (hostWrite 0x00 1 { fresh with cmd := 3, status := 0x0000000A }) (·.status) = some 0x00000001 := by decide

/-- F12: writes to read-only registers are ignored. -/
theorem test_read_only :
    seen (hostWrite 0x10 0 fresh) (fun t => t.digest[0]) = some 0x67452301 ∧
    seen (hostWrite 0x09 5 fresh) (·.code) = some 0 ∧
    seen (hostWrite 0x01 0xFFFFFFFF fresh) (·.status) = some 0 := by decide

/-- F13: a cell keeps bits 7:0 only. -/
theorem test_cell_write :
    seen (hostWrite 0x01000000 0x12345680 fresh) (fun t => regValue t (.msgCell 0)) = some 0x00000080 := by decide

/-- F14: unmapped indices. -/
theorem test_unmapped :
    [0x0A, 0x15, 0x30, 0x00010050, 0x01000080].map (fun i => (seen (hostRead i fresh) (·.reads)).isNone) =
      [true, true, true, true, true] := by decide

/-- F1: `STEP` reads 0x1E after reset. -/
theorem test_read_after_reset :
    seen (hostRead 0x08 fresh) (·.reads) = some [{ index := 0x08, value := 0x0000001E }] := by decide

/-- R260: reset leaves a fault. -/
theorem test_reset_leaves_fault :
    seen (step { faulty with pending := [.reset] }) (fun t => (t.status, t.cmd, t.stepLen)) = some (0, 0, 30) := by decide

/-! ### Witnesses: reset, the map, host accesses -/

theorem test_witness_resetFromAnyState :
    ({ running .hash fresh with pending := [.reset] } : State).pending = .reset :: [] ∧
    ({ faulty with pending := [.reset, .read 1] } : State).pending = .reset :: [.read 1] := by decide

theorem test_witness_registerMapIsOneToOne :
    caps.wellFormed = true ∧ locate caps 0x14 = some (.digest 4) ∧ locate caps 0x2F = some (.blk 15) ∧
    locate caps 0x0001004F = some (.keyCell 79) ∧ locate caps 0x0100007F = some (.msgCell 127) ∧
    locate { msgCap := 2 ^ 24, keyCap := 2 ^ 16 } (2 ^ 25 - 1) = some (.msgCell (2 ^ 24 - 1)) := by decide

/-- Both ends of each unmapped range are unmapped, and the mapped indices beside them are not. -/
theorem test_witness_unmappedIndicesAreTheListedOnes :
    caps.wellFormed = true ∧
    ([0x0A, 0x0F, 0x15, 0x1F, 0x30, 0xFFFF, 0x00010050, 0x00FFFFFF, 0x01000080].all fun i => (locate caps i).isNone) = true ∧
    ([0x00, 0x09, 0x10, 0x14, 0x20, 0x2F, 0x00010000, 0x0001004F, 0x01000000, 0x0100007F].all
      fun i => (locate caps i).isSome) = true := by decide

theorem test_witness_unmappedAccessIsRefused : locate fresh.params 0x0A = none ∧ locate fresh.params 0x01000080 = none := by
  decide

theorem test_witness_readReturnsTheCurrentValue :
    (locate fresh.params 0x09 = some .code ∧ fresh.busy = false) ∧
    (locate (running .hash fresh).params 0x01 = some .status ∧ (running .hash fresh).busy = true ∧
      engineHeld .status = false) := by decide

theorem test_witness_readOfHeldRegisterIsFree :
    locate (running .hotp fresh).params 0x09 = some .code ∧ (running .hotp fresh).busy = true ∧ engineHeld .code = true := by
  decide

theorem test_witness_readOnlyRegistersIgnoreWrites :
    locate fresh.params 0x14 = some (.digest 4) ∧ readOnly (.digest 4) = true ∧ locate fresh.params 0x01 = some .status ∧
    readOnly .status = true := by decide

theorem test_witness_writeWhileBusyIsDropped :
    locate (running .hash fresh).params 0x00 = some .cmd ∧ readOnly .cmd = false ∧ (running .hash fresh).busy = true ∧
    locate (running .hash fresh).params 0x0100007F = some (.msgCell 127) ∧ readOnly (.msgCell 127) = false := by decide

/-- A register and a cell, the second in a faulted state. -/
theorem test_witness_operandWriteStores :
    (fresh.params.wellFormed = true ∧ locate fresh.params 0x2F = some (.blk 15) ∧ readOnly (.blk 15) = false ∧
      Reg.blk 15 ≠ .cmd ∧ fresh.busy = false) ∧
    (faulty.params.wellFormed = true ∧ locate faulty.params 0x0001004F = some (.keyCell 79) ∧
      readOnly (.keyCell 79) = false ∧ Reg.keyCell 79 ≠ .cmd ∧ faulty.busy = false ∧ faulty.faulted = true) := by decide

theorem test_witness_commandWriteAfterFaultIsDropped : faulty.busy = false ∧ faulty.faulted = true := by decide

/-! ### Witnesses: decode and accept -/

theorem test_witness_illegalWordFaults :
    fresh.busy = false ∧ fresh.faulted = false ∧ (0x00000000#32).toNat ∉ [1, 2, 3, 4, 5, 6] ∧
    (0x00000007#32).toNat ∉ [1, 2, 3, 4, 5, 6] ∧ (0x00000103#32).toNat ∉ [1, 2, 3, 4, 5, 6] := by decide

/-- One state for each clause: an illegal word; each length just above its capacity; a zero step; all operands at their bounds,
where every command is accepted. The clauses are an if and else chain. -/
theorem test_witness_decodeMakesTheChecksInOrder :
    (fresh.busy = false ∧ fresh.faulted = false ∧ (0x00000103#32).toNat / 2 ^ 8 ≠ 0 ∧
      (0x00000007#32).toNat % 2 ^ 8 ∉ [1, 2, 3, 4, 5, 6]) ∧
    (let s : State := { fresh with msgLen := 129 };
      s.busy = false ∧ s.faulted = false ∧ s.params.msgCap < s.msgLen.toNat) ∧
    (let s : State := { fresh with msgLen := 128, keyLen := 81 };
      s.busy = false ∧ s.faulted = false ∧ ¬s.params.msgCap < s.msgLen.toNat ∧ s.params.keyCap < s.keyLen.toNat) ∧
    (let s : State := { fresh with keyLen := 80, stepLen := 0 };
      s.busy = false ∧ s.faulted = false ∧ ¬s.params.keyCap < s.keyLen.toNat ∧ s.stepLen = 0) ∧
    (let s : State := { fresh with msgLen := 128, keyLen := 80, stepLen := 1 };
      s.busy = false ∧ s.faulted = false ∧ ¬s.params.msgCap < s.msgLen.toNat ∧ ¬s.params.keyCap < s.keyLen.toNat ∧
      s.stepLen ≠ 0) := by decide

theorem test_witness_messageTooLongFaults :
    let s : State := { fresh with msgLen := 129, keyLen := 81 }
    s.busy = false ∧ s.faulted = false ∧ s.params.msgCap < s.msgLen.toNat := by decide

theorem test_witness_keyTooLongFaults :
    let s : State := { fresh with msgLen := 128, keyLen := 81, stepLen := 0 }
    s.busy = false ∧ s.faulted = false ∧ s.params.keyCap < s.keyLen.toNat ∧ s.msgLen.toNat ≤ s.params.msgCap := by decide

theorem test_witness_zeroStepFaults :
    let s : State := { fresh with keyLen := 80, stepLen := 0 }
    s.busy = false ∧ s.faulted = false ∧ s.keyLen.toNat ≤ s.params.keyCap ∧ s.stepLen = 0 := by decide

/-! ### Witnesses: the commands at complete, and their frames -/

/-- The decode clause of the six command statements: idle and not faulted; the lengths and the step on both sides of each bound
are in test_witness_decodeMakesTheChecksInOrder. -/
theorem test_witness_decode_clause : fresh.busy = false ∧ fresh.faulted = false := by decide

/-- The completion clause of InitLoadsTheConstants and CompressFoldsTheBlock. -/
theorem test_witness_completion_without_operands : (running .init fresh).busy = true ∧ (running .compress fresh).busy = true := by
  decide

/-- HashDigestsTheMessage, MacTagsTheMessage, MacFillsKeyAndInnerRegisters, HotpGivesTheCode, TotpGivesTheCode: the lengths at
the capacities and the smallest step. -/
theorem test_witness_completion_with_operands :
    let s : State := running .totp { fresh with msgLen := 128, keyLen := 80, stepLen := 1 }
    s.busy = true ∧ s.msgLen.toNat ≤ s.params.msgCap ∧ s.keyLen.toNat ≤ s.params.keyCap ∧ s.stepLen ≠ 0 := by decide

/-- At decode, and for each command at complete, `exec` answers a next state. -/
theorem test_witness_digestCommandsFrame :
    (∃ t, exec .hash fresh = .next t ∧ fresh.busy = false) ∧
    (∀ i : Instr, i = .init ∨ i = .compress ∨ i = .hash → ∃ t, exec i (running i fresh) = .next t) := by
  refine ⟨⟨_, exec_of_not_busy (by decide) .hash, by decide⟩, fun i _ => ?_⟩
  cases i <;> exact ⟨_, exec_of_busy (by decide) (by decide)⟩

theorem test_witness_macCommandsFrame :
    (∃ t, exec .mac fresh = .next t ∧ fresh.busy = false) ∧
    (∀ i : Instr, i = .mac ∨ i = .hotp ∨ i = .totp → ∃ t, exec i (running i fresh) = .next t) := by
  refine ⟨⟨_, exec_of_not_busy (by decide) .mac, by decide⟩, fun i _ => ?_⟩
  cases i <;> exact ⟨_, exec_of_busy (by decide) (by decide)⟩

theorem test_witness_totpEqualsHotpAtItsCounter :
    let s : State := withKey digitsKey { fresh with nowLo := 59 }
    s.busy = false ∧ s.faulted = false ∧ s.keyLen.toNat ≤ s.params.keyCap ∧ s.stepLen ≠ 0 := by decide

theorem test_witness_compressEachBlockEqualsSha : fresh.busy = false ∧ fresh.faulted = false := by decide

/-- Two states with the same message and different everything else. -/
theorem test_witness_hashDependsOnTheMessageOnly :
    let s1 : State := withMessage [0x61, 0x62] fresh
    let s2 : State := withMessage [0x61, 0x62] { fresh with digest := Vector.replicate 5 7, code := 3, params := Params.suggested }
    s1.busy = false ∧ s1.faulted = false ∧ s2.busy = false ∧ s2.faulted = false ∧ s1.msgLen = s2.msgLen ∧
    s1.msgLen.toNat ≤ s1.params.msgCap ∧ s2.msgLen.toNat ≤ s2.params.msgCap ∧
    (∀ j, j < s1.msgLen.toNat → s1.cell (msgBase + j) = s2.cell (msgBase + j)) ∧ s1.digest ≠ s2.digest := by decide

/-- The key is one byte, the message is empty; the states differ elsewhere. -/
theorem test_witness_macDependsOnKeyAndMessageOnly :
    let s1 : State := withKey [0x61] fresh
    let s2 : State := withKey [0x61] { fresh with digest := Vector.replicate 5 7, ctrLo := 3 }
    s1.busy = false ∧ s1.faulted = false ∧ s2.busy = false ∧ s2.faulted = false ∧ s1.msgLen = s2.msgLen ∧
    s1.msgLen.toNat ≤ s1.params.msgCap ∧ s2.msgLen.toNat ≤ s2.params.msgCap ∧ s1.keyLen = s2.keyLen ∧
    s1.keyLen.toNat ≤ s1.params.keyCap ∧ s2.keyLen.toNat ≤ s2.params.keyCap ∧
    (∀ j, j < s1.msgLen.toNat → s1.cell (msgBase + j) = s2.cell (msgBase + j)) ∧
    (∀ j, j < s1.keyLen.toNat → s1.cell (keyBase + j) = s2.cell (keyBase + j)) ∧ s1 ≠ s2 := by decide

theorem test_witness_hotpDependsOnKeyAndCounterOnly :
    let s1 : State := withKey [0x61] { fresh with ctrLo := 3 }
    let s2 : State := withKey [0x61] { fresh with ctrLo := 3, msgLen := 9, nowLo := 8 }
    s1.busy = false ∧ s1.faulted = false ∧ s2.busy = false ∧ s2.faulted = false ∧ s1.keyLen = s2.keyLen ∧
    s1.keyLen.toNat ≤ s1.params.keyCap ∧ s2.keyLen.toNat ≤ s2.params.keyCap ∧
    (∀ j, j < s1.keyLen.toNat → s1.cell (keyBase + j) = s2.cell (keyBase + j)) ∧ s1.ctrHi = s2.ctrHi ∧
    s1.ctrLo = s2.ctrLo ∧ s1 ≠ s2 := by decide

/-! ### Witnesses: the pure functions -/

/-- Both ranges of the schedule: words 15 and 16. -/
theorem test_witness_scheduleFollowsTheRecurrence : (15 < 16) ∧ (16 ≤ 16 ∧ 16 < 80) ∧ (16 ≤ 79 ∧ 79 < 80) := by decide

theorem test_witness_stageFunctionsBitByBit : (0 < 32) ∧ (31 < 32) := by decide

theorem test_witness_roundUpdatesTheWorkingRegisters :
    ((0 : Fin 4).val = (19 : Fin 80).val / 20) ∧ ((1 : Fin 4).val = (20 : Fin 80).val / 20) ∧
    ((3 : Fin 4).val = (79 : Fin 80).val / 20) := by decide

/-- Both clauses at their boundary: bit n - 1 and bit n. -/
theorem test_witness_rotationKeepsEveryBit :
    (1 ≤ 1 ∧ 1 ≤ 31 ∧ 0 < 32 ∧ 0 < 1) ∧ (1 ≤ 31 ∧ 31 ≤ 31 ∧ 31 < 32 ∧ ¬31 < 31) := by decide

/-- A message of 5 bytes, and byte indices in each of the four ranges. -/
theorem test_witness_paddedBytesOneByOne :
    (padBytes (letters 5 (by decide))).length = 64 ∧
    (padBytes (letters 5 (by decide)))[4]? = some 0x61 ∧ (padBytes (letters 5 (by decide)))[5]? = some 0x80 ∧
    (padBytes (letters 5 (by decide)))[6]? = some 0x00 ∧ (padBytes (letters 5 (by decide)))[55]? = some 0x00 ∧
    (padBytes (letters 5 (by decide)))[63]? = some 0x28 := by decide

theorem test_witness_blockWordsArePaddedBytes : 1 < (pad (letters 56 (by decide))).length := by decide

set_option maxRecDepth 8000 in
theorem test_witness_lastBlockHoldsTheBitLength :
    (pad (letters 5 (by decide))).getLast? =
      some #v[0x61616161, 0x61800000, 0, 0, 0, 0, 0, 0, 0, 0, 0, 0, 0, 0, 0, 0x00000028] := by decide

theorem test_witness_tagIsTheByteViewOfDigest : 0 < 20 ∧ 19 < 20 := by decide

/-- Keys of 64 and of 65 bytes, and a short key extended to exactly 64. -/
theorem test_witness_normalizedKeyForms :
    (letters 64 (by decide)).bytes.length ≤ 64 ∧ 64 < (letters 65 (by decide)).bytes.length ∧
    ((letters 4 (by decide)).bytes.length + 60 ≤ 64 ∧
      ({ bytes := (letters 4 (by decide)).bytes ++ List.replicate 60 0, fits := by decide } : PadInput).bytes =
        (letters 4 (by decide)).bytes ++ List.replicate 60 0) := by decide

/-- Offsets 0 and 15, the two clauses at the ends of their range. -/
theorem test_witness_windowStraddlesDigestWords :
    truncOffset (tagOf #v[1, 2, 3, 4, 0x00000010]) = 4 * 0 + 0 ∧ truncOffset (tagOf #v[1, 2, 3, 4, 0x0000001F]) = 4 * 3 + 3 := by
  decide

/-- An empty message and one of 2^24 bytes are short enough. -/
theorem test_witness_macOfIsTwoHashes : 8 * (64 + ([] : List Byte).length) < 2 ^ 64 ∧ 8 * (64 + 2 ^ 24) < 2 ^ 64 := by decide

theorem test_witness_timeStepIsFloorDivision : (1 : Word) ≠ 0 ∧ (0xFFFFFFFF : Word) ≠ 0 := by decide

/-! ### Witnesses: the whole machine -/

theorem test_witness_invariant_fresh : Inv fresh := ⟨by decide, by decide, by decide, by decide, by decide, by decide⟩

theorem test_witness_invariant_running : Inv (running .totp fresh) :=
  ⟨by decide, by decide, by decide, by decide, by decide, by decide⟩

/-- StepKeepsTheInvariant, InvariantExcludesModelFaults: a state with a host write pending. -/
theorem test_witness_stepKeepsTheInvariant :
    ∃ t, Inv { fresh with pending := [.write 0x02 5] } ∧ step { fresh with pending := [.write 0x02 5] } = .next t :=
  ⟨_, ⟨by decide, by decide, by decide, by decide, by decide, by decide⟩, rfl⟩

/-- A dropped command write and a stored operand write in a faulted state. -/
theorem test_witness_onlyResetLeavesAFault :
    faulty.statusLegal = true ∧ faulty.faulted = true ∧
    (∀ rest, ({ faulty with pending := [.write 0x00 1] } : State).pending ≠ .reset :: rest) ∧
    (∃ t, step { faulty with pending := [.write 0x00 1] } = .next t) ∧
    (∃ t, step { faulty with pending := [.write 0x02 5] } = .next t) :=
  ⟨by decide, by decide, by simp, ⟨_, rfl⟩, ⟨_, rfl⟩⟩

/-- A dropped write, a free read and a read of an operand register while a command runs. -/
theorem test_witness_hostCannotDisturbARunningCommand :
    (running .hotp fresh).busy = true ∧ Event.write 0x02 5 ≠ .engine ∧ Event.write 0x02 5 ≠ .reset ∧
    (∃ t, step { running .hotp fresh with pending := [.write 0x02 5] } = .next t) ∧
    (∃ t, step { running .hotp fresh with pending := [.read 0x09] } = .next t) ∧
    locate (running .hotp fresh).params 0x09 = some .code ∧ engineHeld .code = true ∧
    (∃ t, step { running .hotp fresh with pending := [.read 0x08] } = .next t) ∧
    locate (running .hotp fresh).params 0x08 = some .stepLen ∧ engineHeld .stepLen = false :=
  ⟨by decide, by decide, by decide, ⟨_, rfl⟩, ⟨_, rfl⟩, by decide, by decide, ⟨_, rfl⟩, by decide, by decide⟩

theorem test_witness_hostNeverWritesResults :
    (∃ t, hostRead 0x10 fresh = .next t) ∧ (∃ t, hostWrite 0x09 5 fresh = .next t) := ⟨⟨_, rfl⟩, ⟨_, rfl⟩⟩

/-- With nothing pending (the running state of test_witness_invariant_running), and with the engine's turn pending. -/
theorem test_witness_engineTurnCompletes :
    (running .totp fresh).busy = true ∧ (running .totp fresh).pending = [] ∧
    ({ running .totp fresh with pending := [.engine, .read 1] } : State).pending = .engine :: [.read 1] := by decide

/-- A command write, the engine's turn pending, and the engine's turn with nothing pending. -/
theorem test_witness_stepRunsTheDecodedCommand :
    (({ fresh with pending := [.write 0x00 3] } : State).pending = .write 0x00 3 :: [] ∧ fresh.busy = false ∧
      decode 3 = .ok .hash) ∧
    (({ running .mac fresh with pending := [.engine] } : State).pending = .engine :: [] ∧ (running .mac fresh).busy = true ∧
      decode (running .mac fresh).cmd = .ok .mac) ∧
    ((running .init fresh).pending = [] ∧ (running .init fresh).busy = true ∧
      decode (running .init fresh).cmd = .ok .init) := by decide

theorem test_witness_stepPerformsTheNextEvent :
    ({ fresh with pending := [.read 1, .reset] } : State).pending = .read 1 :: [.reset] ∧
    ({ fresh with pending := [.write 2 5] } : State).pending = .write 2 5 :: [] ∧
    ({ fresh with pending := [.engine] } : State).pending = .engine :: [] ∧
    ({ fresh with pending := [.reset] } : State).pending = .reset :: [] ∧ fresh.pending = [] ∧ fresh.busy = false := by decide

end Sys2Proof.Tests
end

section
/-! Proofs about the word operators (00_scope.md R11, R12): the rotation, and the big-endian conversions. -/

namespace Sys2Proof.Machine

/-! ### The rotation -/

/-- On R12's range of amounts the model's rotation is the library's. -/
theorem rotl32_eq_rotateLeft (x : Word) {n : Nat} (hn : n < 32) : rotl32 x n = x.rotateLeft n := by
  rw [BitVec.rotateLeft_def, Nat.mod_eq_of_lt hn, rotl32]

/-- Settles O40: bit by bit, the two ranges of the library's rotation. -/
theorem rotationKeepsEveryBit : Obligations.RotationKeepsEveryBit := by
  intro x n k _ hn hk
  rw [rotl32_eq_rotateLeft x (by omega), BitVec.getLsbD_rotateLeft_of_le (by omega)]
  by_cases hwrap : k < n
  · simp only [hwrap, decide_true, cond_true, if_true, show 32 - n + k = k + 32 - n by omega]
  · simp only [hwrap, hk, decide_false, decide_true, cond_false, if_false, Bool.true_and]

/-! ### The big-endian conversions -/

theorem toNat_append_eq_add {m n : Nat} (hi : BitVec m) (lo : BitVec n) :
    (hi ++ lo).toNat = hi.toNat * 2 ^ n + lo.toNat := by
  rw [BitVec.toNat_append, ← Nat.shiftLeft_add_eq_or_of_lt lo.isLt, Nat.shiftLeft_eq]

theorem be32_toNat (b0 b1 b2 b3 : Byte) :
    (be32 b0 b1 b2 b3).toNat = b0.toNat * 2 ^ 24 + b1.toNat * 2 ^ 16 + b2.toNat * 2 ^ 8 + b3.toNat := by
  simp only [be32, toNat_append_eq_add]
  omega

/-- Adjacent fields join: each `++` of `be32` widens the field of `v` by one byte, until it is `v`. -/
@[simp] theorem be32_byteOf (v : Word) : be32 (byteOf v 0) (byteOf v 1) (byteOf v 2) (byteOf v 3) = v := by
  have top16 : byteOf v 0 ++ byteOf v 1 = v.extractLsb' 16 16 :=
    BitVec.extractLsb'_append_extractLsb'_eq_extractLsb' rfl
  have top24 : v.extractLsb' 16 16 ++ byteOf v 2 = v.extractLsb' 8 24 :=
    BitVec.extractLsb'_append_extractLsb'_eq_extractLsb' rfl
  have all32 : v.extractLsb' 8 24 ++ byteOf v 3 = v.extractLsb' 0 32 :=
    BitVec.extractLsb'_append_extractLsb'_eq_extractLsb' rfl
  rw [be32, top16, top24, all32, BitVec.extractLsb'_eq_self]

/-- Reading on through the bytes of `v` from a value `acc` read so far. -/
theorem foldl_toBE32 (v : Word) (acc : Nat) :
    (toBE32 v).foldl (fun n b => n * 256 + b.toNat) acc = acc * 2 ^ 32 + v.toNat := by
  have hv := be32_toNat (byteOf v 0) (byteOf v 1) (byteOf v 2) (byteOf v 3)
  rw [be32_byteOf] at hv
  simp only [toBE32, List.foldl_cons, List.foldl_nil]
  omega

/-- The high word's bytes are read first, then the low word's; the two words make up `v`. -/
theorem foldl_toBE64 (v : BitVec 64) : (toBE64 v).foldl (fun n b => n * 256 + b.toNat) 0 = v.toNat := by
  rw [toBE64, List.foldl_append, foldl_toBE32, foldl_toBE32, Nat.zero_mul, Nat.zero_add, ← joinWords_toNat,
    joinWords_hiWord_loWord]

/-- Settles O41: `toBE32`'s bytes by definition, the round trip by joining adjacent fields, `toBE64`'s value from its two
words'. -/
theorem bigEndianConversions : Obligations.BigEndianConversions :=
  ⟨be32_toNat, fun _ => rfl, be32_byteOf, fun v => ⟨toBE64_length v, foldl_toBE64 v⟩⟩

end Sys2Proof.Machine
end

section
/-! Proofs about the host's accesses (10_state.md R41, R42, R45): what each answers, what a stored operand changes, and that
nothing else changes. -/

namespace Sys2Proof.Machine

/-! ### What a host access answers, case by case -/

theorem hostRead_of_readsFree {s : State} {i : Nat} {r : Reg} (hl : locate s.params i = some r)
    (hf : readsFree s r = true) :
    hostRead i s = .next { s with
      reads := s.reads ++ [{ index := i, value := Config.freeWord s.draws }]
      draws := s.draws + 1 } := by
  simp [hostRead, hl, hf]

theorem hostRead_of_not_readsFree {s : State} {i : Nat} {r : Reg} (hl : locate s.params i = some r)
    (hf : readsFree s r = false) :
    hostRead i s = .next { s with reads := s.reads ++ [{ index := i, value := regValue s r }] } := by
  simp [hostRead, hl, hf]

theorem hostWrite_of_readOnly {s : State} {i : Nat} {r : Reg} (hl : locate s.params i = some r)
    (hr : readOnly r = true) (v : Word) : hostWrite i v s = .next s := by
  simp [hostWrite, hl, hr]

theorem hostWrite_of_operand {s : State} {i : Nat} {r : Reg} (hl : locate s.params i = some r)
    (hr : readOnly r = false) (hc : r ≠ .cmd) (hb : s.busy = false) (v : Word) :
    hostWrite i v s = .next (storeReg s r v) := by
  simp [hostWrite, hl, hr, hc, hb]

theorem hostWrite_cmd {s : State} (hb : s.busy = false) (v : Word) : hostWrite 0x00 v s = writeCmd v s := by
  have hl : locate s.params 0x00 = some .cmd := rfl
  simp [hostWrite, hl, readOnly, hb]

/-- Settles O11: the read is free by both hypotheses. -/
theorem readOfHeldRegisterIsFree : Obligations.ReadOfHeldRegisterIsFree := by
  intro s i r hl hb hh
  exact hostRead_of_readsFree hl (by simp [readsFree, hb, hh])

/-- Settles O10: the read is not free by either hypothesis; a cell's byte keeps its value when it is zero-extended. -/
theorem readReturnsTheCurrentValue : Obligations.ReadReturnsTheCurrentValue := by
  have hcell (s : State) (a : Nat) : ((s.cell a).setWidth 32).toNat = (s.cell a).toNat :=
    BitVec.toNat_setWidth_of_le (by decide)
  refine ⟨fun s i r hl h => hostRead_of_not_readsFree hl ?_, fun s =>
    ⟨rfl, rfl, rfl, rfl, rfl, rfl, rfl, rfl, rfl, rfl, fun _ => rfl, fun _ => rfl, fun _ => hcell s _, fun _ => hcell s _⟩⟩
  rcases h with hb | hh
  · simp [readsFree, hb]
  · simp [readsFree, hh]

/-- Settles O12. -/
theorem readOnlyRegistersIgnoreWrites : Obligations.ReadOnlyRegistersIgnoreWrites :=
  fun _ _ v _ hl hr => hostWrite_of_readOnly hl hr v

/-- Settles O15: the write is a decode step, and `FAULT` drops its word. -/
theorem commandWriteAfterFaultIsDropped : Obligations.CommandWriteAfterFaultIsDropped := by
  intro s v hb hf
  obtain ⟨w, c, hw⟩ := writeCmd_of_not_busy hb v
  rw [hostWrite_cmd hb, hw, decodeStep_of_faulted hf]

/-! ### What a stored operand changes -/

/-- Two registers that the parameters admit, with one index, are one register (R61). -/
theorem regIndex_inj {p : Params} (hp : p.wellFormed = true) {r r' : Reg} (h : inInstance p r = true)
    (h' : inInstance p r' = true) (he : regIndex r = regIndex r') : r = r' := by
  have hl := locate_regIndex hp h
  rw [he, locate_regIndex hp h'] at hl
  exact (Option.some.inj hl).symm

/-- Storing writes the operand registers, `BLK` and the cells only. -/
theorem storeReg_frame (s : State) (r : Reg) (v : Word) :
    storeReg s r v = { s with
      msgLen := (storeReg s r v).msgLen, keyLen := (storeReg s r v).keyLen, ctrHi := (storeReg s r v).ctrHi
      ctrLo := (storeReg s r v).ctrLo, nowHi := (storeReg s r v).nowHi, nowLo := (storeReg s r v).nowLo
      stepLen := (storeReg s r v).stepLen, blk := (storeReg s r v).blk, mem := (storeReg s r v).mem } := by
  cases r <;> rfl

/-- Storing leaves the results, `CMD`, `STATUS`, the internal registers and the model's own fields. -/
@[simp] theorem storeReg_fields (s : State) (r : Reg) (v : Word) :
    (storeReg s r v).cmd = s.cmd ∧ (storeReg s r v).status = s.status ∧ (storeReg s r v).code = s.code ∧
    (storeReg s r v).digest = s.digest ∧ (storeReg s r v).work = s.work ∧ (storeReg s r v).sched = s.sched ∧
    (storeReg s r v).k0 = s.k0 ∧ (storeReg s r v).inner = s.inner ∧ (storeReg s r v).t = s.t ∧
    (storeReg s r v).bi = s.bi ∧ (storeReg s r v).nb = s.nb ∧ (storeReg s r v).params = s.params ∧
    (storeReg s r v).pending = s.pending ∧ (storeReg s r v).reads = s.reads ∧ (storeReg s r v).draws = s.draws ∧
    (storeReg s r v).epoch = s.epoch := by
  rw [storeReg_frame]
  exact ⟨rfl, rfl, rfl, rfl, rfl, rfl, rfl, rfl, rfl, rfl, rfl, rfl, rfl, rfl, rfl, rfl⟩

/-- Storing writes the byte at a cell's index, and no cell for any other register. -/
theorem storeReg_mem (s : State) (r : Reg) (v : Word) :
    (storeReg s r v).mem = if isCellReg r then Memory.write s.mem (regIndex r) (v.setWidth 8) else s.mem := by
  cases r <;> rfl

/-- A stored register reads as the value stored, a cell as its bits 7:0 (R42 cases 6 and 7). -/
theorem regValue_storeReg_same (s : State) (v : Word) {r : Reg} (hr : readOnly r = false) (hc : r ≠ .cmd) :
    regValue (storeReg s r v) r = if isCellReg r then (v.setWidth 8).setWidth 32 else v := by
  cases r with
  | cmd => exact absurd rfl hc
  | status | code | digest k => cases hr
  | blk j => simp [storeReg, regValue, isCellReg]
  | keyCell o | msgCell o => simp [storeReg, regValue, isCellReg, State.cell_write]
  | _ => rfl

/-- A stored register leaves every other register (R42 cases 6 and 7). Two cells are told apart by their
indices, two words of `BLK` by their numbers, any other two registers by their fields. -/
theorem regValue_storeReg_other {s : State} (hp : s.params.wellFormed = true) {r r' : Reg}
    (hr : inInstance s.params r = true) (hr' : inInstance s.params r' = true) (hne : r' ≠ r) (v : Word) :
    regValue (storeReg s r v) r' = regValue s r' := by
  have hidx : regIndex r' ≠ regIndex r := fun he => hne (regIndex_inj hp hr' hr he)
  cases r with
  | keyCell o | msgCell o =>
    cases r' with
    | keyCell o' | msgCell o' =>
      simp only [regIndex] at hidx
      simp only [storeReg, regValue, State.cell_write, if_neg hidx]
    | _ => rfl
  | blk j =>
    cases r' with
    | blk k =>
      have hjk : j.val ≠ k.val := fun he => hne (congrArg Reg.blk (Fin.ext he.symm))
      exact Vector.getElem_set_ne j.isLt k.isLt hjk
    | _ => rfl
  | _ => cases r' <;> trivial

/-- Settles O14: the write is a store of the register found at the index. -/
theorem operandWriteStores : Obligations.OperandWriteStores := by
  intro s i v r hp hl hr hc hb
  obtain ⟨-, hin⟩ := regIndex_of_locate hl
  refine ⟨storeReg s r v, hostWrite_of_operand hl hr hc hb v, regValue_storeReg_same s v hr hc,
    fun r' hr' hne => regValue_storeReg_other hp hin hr' hne v, ?_⟩
  simp only [storeReg_fields, and_self]

/-! ### What no host access changes -/

/-- Settles O57: a read writes the record of reads, a decode step `CMD` and `STATUS`, a store the operands. -/
theorem hostNeverWritesResults : Obligations.HostNeverWritesResults := by
  rintro s t i v (h | h)
  · obtain ⟨-, he⟩ | ⟨r, -, value, draws, he⟩ := hostRead_cases i s
    · cases he.symm.trans h
    · cases he.symm.trans h
      exact ⟨rfl, rfl⟩
  · obtain ⟨-, he⟩ | ⟨r, -, ⟨-, he⟩ | ⟨-, -, he⟩ | ⟨-, hb, he⟩ | ⟨-, -, -, he⟩⟩ := hostWrite_cases i v s
    · cases he.symm.trans h
    · cases he.symm.trans h
      exact ⟨rfl, rfl⟩
    · cases he.symm.trans h
      exact ⟨rfl, rfl⟩
    · obtain ⟨w, c, hw⟩ := writeCmd_of_not_busy hb v
      cases (he.trans hw).symm.trans h
      simp only [decodeStep_fields, and_self]
    · cases he.symm.trans h
      simp only [storeReg_fields, and_self]

end Sys2Proof.Machine
end

section
/-! Proofs about the step (10_state.md R40, R42 to R46): the event it performs, and what a host access can do while `BUSY`
is 1. -/

namespace Sys2Proof.Machine

theorem step_of_pending {s : State} {e : Event} {rest : List Event} (hp : s.pending = e :: rest) :
    step s = handle e { s with pending := rest } := by
  simp only [step, advance, hp]

theorem step_of_nothing_pending {s : State} (hp : s.pending = []) : step s = engineTurn s := by
  simp only [step, advance, hp]

theorem engineTurn_of_not_busy {s : State} (hb : s.busy = false) : engineTurn s = .next s := by
  simp [engineTurn, hb]

/-- Settles O60: `handle` is the named operation of each event, and an idle engine's turn rests. -/
theorem stepPerformsTheNextEvent : Obligations.StepPerformsTheNextEvent :=
  ⟨fun _ _ _ hp => step_of_pending hp, fun _ _ _ _ hp => step_of_pending hp, fun _ _ hp => step_of_pending hp,
    fun _ _ hp => step_of_pending hp, fun _ hp hb => (step_of_nothing_pending hp).trans (engineTurn_of_not_busy hb)⟩

/-- A command word written to `CMD` while `BUSY` is 0 runs its command (R93). -/
theorem hostWrite_command {s : State} {v : Word} {i : Instr} (hb : s.busy = false) (hd : decode v = .ok i) :
    hostWrite 0x00 v s = exec i s := by
  rw [hostWrite_cmd hb, writeCmd, hd]

/-- Settles O59: the write decodes to the command, and the engine's turn to the one in `CMD`. -/
theorem stepRunsTheDecodedCommand : Obligations.StepRunsTheDecodedCommand := by
  refine ⟨fun s v i rest hp hb hd => ?_, fun s i rest hp hb hd => ?_, fun s i hp hb hd => ?_⟩
  · exact (step_of_pending hp).trans (hostWrite_command hb hd)
  · exact (step_of_pending hp).trans (engineTurn_of_decode hb hd)
  · exact (step_of_nothing_pending hp).trans (engineTurn_of_decode hb hd)

/-- A dropped write changes bit 3 of `STATUS`, `WERR`, and no other (R42 case 3). -/
theorem dropWrite_status_bit (s : State) (m : Nat) (hm : m < 32) (h3 : m ≠ 3) :
    (dropWrite s).status.getLsbD m = s.status.getLsbD m := by
  simp only [dropWrite, State.setWerr]
  rw [setStatusBit_getLsbD _ _ _ _ hm, if_neg h3]

/-- A host write while `BUSY` is 1 is refused, ignored or dropped (R42 cases 1 to 3). -/
theorem hostWrite_of_busy {s t : State} {i : Nat} {v : Word} (hb : s.busy = true) (h : hostWrite i v s = .next t) :
    t = s ∨ t = dropWrite s := by
  obtain ⟨-, he⟩ | ⟨r, -, ⟨-, he⟩ | ⟨-, -, he⟩ | ⟨-, hb', -⟩ | ⟨-, -, hb', -⟩⟩ := hostWrite_cases i v s
  · cases he.symm.trans h
  · cases he.symm.trans h
    exact .inl rfl
  · cases he.symm.trans h
    exact .inr rfl
  · simp [hb] at hb'
  · simp [hb] at hb'

/-- A host read while `BUSY` is 1 records a value, and draws a free one just when the engine holds the register (R45). -/
theorem hostRead_of_busy {s t : State} {i : Nat} (hb : s.busy = true) (h : hostRead i s = .next t) :
    t = { s with reads := t.reads, draws := t.draws } ∧
    ∀ r, locate s.params i = some r → t.draws = if engineHeld r then s.draws + 1 else s.draws := by
  obtain ⟨-, he⟩ | ⟨r, hl, -⟩ := hostRead_cases i s
  · cases he.symm.trans h
  · have only {r'} (hr' : locate s.params i = some r') : r' = r := Option.some.inj (hr'.symm.trans hl)
    cases hh : engineHeld r
    · cases (hostRead_of_not_readsFree hl (by simp [readsFree, hh])).symm.trans h
      exact ⟨rfl, fun r' hr' => by rw [only hr', hh]; rfl⟩
    · cases (hostRead_of_readsFree hl (by simp [readsFree, hb, hh])).symm.trans h
      exact ⟨rfl, fun r' hr' => by rw [only hr', hh]; rfl⟩

/-- Settles O56: a read records, a write is ignored or dropped. -/
theorem hostCannotDisturbARunningCommand : Obligations.HostCannotDisturbARunningCommand := by
  intro s t e rest hb hp hengine hreset h
  rw [step_of_pending hp] at h
  cases e with
  | engine => exact absurd rfl hengine
  | reset => exact absurd rfl hreset
  | read i =>
    obtain ⟨hframe, hdraws⟩ := hostRead_of_busy (s := { s with pending := rest }) hb h
    have hstatus : t.status = s.status := by rw [hframe]
    refine ⟨?_, ?_, fun m _ _ => by rw [hstatus], ?_, ?_, nofun⟩
    · rw [hstatus]; exact hframe
    · rw [State.busy, hstatus]; exact hb
    · rintro j r ⟨⟩ hl hh
      simpa [hh] using hdraws r hl
    · rintro j r ⟨⟩ hl hh
      simpa [hh] using hdraws r hl
  | write i v =>
    obtain rfl | rfl := hostWrite_of_busy (s := { s with pending := rest }) hb h
    · exact ⟨rfl, hb, fun _ _ _ => rfl, nofun, nofun, fun _ _ _ => ⟨rfl, rfl⟩⟩
    · exact ⟨rfl, (dropWrite_status _).1.trans hb, dropWrite_status_bit _, nofun, nofun, fun _ _ _ => ⟨rfl, rfl⟩⟩

end Sys2Proof.Machine
end

section
/-! Proofs about the machine's invariant (10_state.md R24, R30, R43, R47; 60_exceptions.md R222): it holds at reset, every update
a step makes keeps it, and under it the engine's turn completes the command. -/

namespace Sys2Proof.Machine

/-! ### `STATUS` stays legal -/

theorem State.statusLegal_setWerr {s : State} (h : s.statusLegal = true) (b : Bool) : (s.setWerr b).statusLegal = true := by
  rw [State.statusLegal_iff] at h ⊢
  simp only [State.setWerr_status]
  exact ⟨setStatusBit_lt_256 (by decide) h.1, h.2⟩

theorem State.statusLegal_setDone_false {s : State} (h : s.statusLegal = true) : (s.setDone false).statusLegal = true := by
  rw [State.statusLegal_iff] at h ⊢
  obtain ⟨hlow, -, hrest⟩ := h
  simp only [State.setDone_status]
  exact ⟨setStatusBit_lt_256 (by decide) hlow, by simp, hrest⟩

/-- A command is accepted while no fault is latched and `DONE` is 0 (R93). -/
theorem State.statusLegal_setBusy_true {s : State} (h : s.statusLegal = true) (hd : s.doneFlag = false)
    (hf : s.faulted = false) : (s.setBusy true).statusLegal = true := by
  rw [State.statusLegal_iff] at h ⊢
  obtain ⟨hlow, -, -, hcause⟩ := h
  simp only [State.setBusy_status, hd, hf] at hcause ⊢
  exact ⟨setStatusBit_lt_256 (by decide) hlow, by simp, by simp, hcause⟩

/-- A fault is latched while no command runs, with one of the causes 1 to 4 (R222). -/
theorem State.statusLegal_raiseFault {s : State} (h : s.statusLegal = true) (hb : s.busy = false) {c : Cause}
    (hc : c ≠ .internal) : (raiseFault c s).statusLegal = true := by
  rw [State.statusLegal_iff] at h ⊢
  have hcode : 1 ≤ (causeCode c).toNat ∧ (causeCode c).toNat ≤ 4 := by
    cases c with
    | internal => exact absurd rfl hc
    | _ => decide
  simp only [raiseFault_status, hb]
  exact ⟨setStatusCause_lt_256 (setStatusBit_lt_256 (by decide) h.1), by simp, by simp, fun _ => hcode, by simp⟩

/-- Completion sets `DONE` as it clears `BUSY`, and leaves the fault's bits (R44). -/
theorem State.statusLegal_finish {s : State} (h : s.statusLegal = true) : (finish s).statusLegal = true := by
  rw [State.statusLegal_iff] at h ⊢
  obtain ⟨hlow, -, -, hcause⟩ := h
  simp only [finish_status]
  exact ⟨setStatusBit_lt_256 (by decide) (setStatusBit_lt_256 (by decide) hlow), by simp, by simp, hcause⟩

/-! ### An accepted command stays sound -/

theorem State.acceptedLegal_iff (s : State) :
    s.acceptedLegal = true ↔ (s.busy = true → ∃ i, decode s.cmd = .ok i ∧ operandCheck i s = none) := by
  cases hb : s.busy
  · simp [State.acceptedLegal, hb]
  · cases hd : decode s.cmd <;> simp [State.acceptedLegal, hb, hd]

theorem State.acceptedLegal_of_not_busy {s : State} (hb : s.busy = false) : s.acceptedLegal = true := by
  simp [State.acceptedLegal, hb]

/-! ### Reset -/

/-- Settles O5: R47's values are the model's, written out. -/
theorem resetLeavesTheListedValues : Obligations.ResetLeavesTheListedValues :=
  ⟨rfl, rfl, rfl, rfl, rfl, rfl, rfl, rfl, rfl, rfl, rfl, by decide⟩

/-- The invariant looks at none of the model's own fields but the parameters. -/
theorem inv_resetRegisters {p : Params} (hp : p.wellFormed = true) (pending : List Event) (reads : List ReadBack)
    (draws epoch : Nat) :
    Inv { State.reset with params := p, pending := pending, reads := reads, draws := draws, epoch := epoch } where
  params := hp
  status := (by decide : State.reset.statusLegal = true)
  accepted := State.acceptedLegal_of_not_busy (rfl : State.reset.busy = false)
  code := (by decide : State.reset.code.toNat < codeModulus)
  round := (by decide : State.reset.t.toNat ≤ 80)
  mem := rfl

/-- Settles O52. -/
theorem invariantAtReset : Obligations.InvariantAtReset :=
  inv_resetRegisters (p := Params.suggested) (by decide) [] [] 0 0

theorem inv_applyReset {s : State} (h : Inv s) : Inv (applyReset s) :=
  inv_resetRegisters h.params s.pending s.reads s.draws (s.epoch + 1)

/-! ### The host's accesses keep the invariant -/

/-- The events to come, the record of reads and the counter of free reads are not part of the invariant. -/
theorem inv_hostFields {s : State} (h : Inv s) (pending : List Event) (reads : List ReadBack) (draws : Nat) :
    Inv { s with pending := pending, reads := reads, draws := draws } :=
  ⟨h.params, h.status, Eq.trans (b := s.acceptedLegal) (State.acceptedLegal_congr rfl rfl rfl rfl rfl rfl) h.accepted,
    h.code, h.round, h.mem⟩

theorem inv_dropWrite {s : State} (h : Inv s) : Inv (dropWrite s) where
  params := h.params
  status := State.statusLegal_setWerr h.status true
  accepted := by
    have hacc := h.accepted
    have hcheck (i : Instr) : operandCheck i (dropWrite s) = operandCheck i s := operandCheck_congr i rfl rfl rfl rfl
    rw [State.acceptedLegal_iff] at hacc ⊢
    simpa only [dropWrite_status, dropWrite_fields, hcheck] using hacc
  code := h.code
  round := h.round
  mem := h.mem

/-- An index at which a cell is found is a cell's. -/
theorem isCell_of_locate {p : Params} {i : Nat} {r : Reg} (hl : locate p i = some r) (hr : isCellReg r = true) :
    isCell p i = true := by
  cases r with
  | keyCell o | msgCell o => simp [isCell, hl]
  | _ => cases hr

/-- A write at a cell's index keeps the listed cells canonical. -/
theorem State.memLegal_write {s : State} (h : s.memLegal = true) {i : Nat} (hi : isCell s.params i = true) (b : Byte) :
    State.memLegal { s with mem := Memory.write s.mem i b } = true := by
  simp only [State.memLegal, Bool.and_eq_true, List.all_eq_true] at h ⊢
  obtain ⟨hwf, hall⟩ := h
  refine ⟨Memory.wf_write hwf i b, fun c hc => ?_⟩
  obtain rfl | hold := Memory.mem_write hc
  · exact hi
  · exact hall c hold

/-- Only a store to a cell changes the cells, and then at the cell's index. -/
theorem memLegal_storeReg {s : State} (h : s.memLegal = true) {i : Nat} {r : Reg} (hl : locate s.params i = some r)
    (v : Word) : (storeReg s r v).memLegal = true := by
  obtain ⟨hidx, -⟩ := regIndex_of_locate hl
  have hparams : (storeReg s r v).params = s.params := by simp only [storeReg_fields]
  have hmem := storeReg_mem s r v
  cases hr : isCellReg r <;> rw [hr] at hmem
  · rw [State.memLegal, hparams, hmem]
    exact h
  · rw [State.memLegal, hparams, hmem, hidx]
    exact State.memLegal_write h (isCell_of_locate hl hr) _

theorem inv_storeReg {s : State} (h : Inv s) (hb : s.busy = false) {i : Nat} {r : Reg}
    (hl : locate s.params i = some r) (v : Word) : Inv (storeReg s r v) := by
  have hbusy : (storeReg s r v).busy = s.busy := by simp only [State.busy, storeReg_fields]
  have hstatus : (storeReg s r v).statusLegal = s.statusLegal := by rw [storeReg_frame]; rfl
  constructor
  case status => rw [hstatus]; exact h.status
  case accepted => exact State.acceptedLegal_of_not_busy (hbusy.trans hb)
  case mem => exact memLegal_storeReg h.mem hl v
  all_goals simp only [storeReg_fields]
  exacts [h.params, h.code, h.round]

theorem inv_hostRead {s t : State} {i : Nat} (h : Inv s) (he : hostRead i s = .next t) : Inv t := by
  obtain ⟨-, hr⟩ | ⟨r, -, value, draws, hr⟩ := hostRead_cases i s
  · cases hr.symm.trans he
  · cases hr.symm.trans he
    exact inv_hostFields h s.pending _ draws

/-! ### A decode step keeps the invariant -/

/-- A decode step leaves what the invariant says of `CODE`, `T`, the cells and the parameters. -/
theorem inv_decodeStep {s : State} (h : Inv s) {v : Word} {c : Option Cause}
    (hstatus : (decodeStep v c s).statusLegal = true) (haccepted : (decodeStep v c s).acceptedLegal = true) :
    Inv (decodeStep v c s) := by
  have hmem : (decodeStep v c s).memLegal = s.memLegal := by rw [decodeStep_frame]; rfl
  constructor
  case status => exact hstatus
  case accepted => exact haccepted
  case mem => rw [hmem]; exact h.mem
  all_goals simp only [decodeStep_fields]
  exacts [h.params, h.code, h.round]

/-- A word refused with one of the causes 1 to 4 starts no command. -/
theorem inv_decodeStep_some {s : State} (h : Inv s) (hb : s.busy = false) (v : Word) {c : Cause} (hc : c ≠ .internal) :
    Inv (decodeStep v (some c) s) := by
  cases hf : s.faulted
  · refine inv_decodeStep h ?_ (State.acceptedLegal_of_not_busy ?_)
    · rw [decodeStep_of_not_faulted hf]
      refine State.statusLegal_raiseFault (State.statusLegal_setWerr (State.statusLegal_setDone_false ?_) false) ?_ hc
      · exact h.status
      · simp only [State.setWerr_status, State.setDone_status]
        exact hb
    · obtain ⟨-, hbusy, -⟩ := decodeStep_some_status hf v c
      exact hbusy.trans hb
  · rw [decodeStep_of_faulted hf]
    exact h

/-- A command whose checks hold is accepted with its checks holding. -/
theorem inv_decodeStep_none {s : State} (h : Inv s) {v : Word} {i : Instr} (hd : decode v = .ok i)
    (hc : operandCheck i s = none) : Inv (decodeStep v none s) := by
  cases hf : s.faulted
  · obtain ⟨hcmd, -⟩ := decodeStep_none_status hf v
    refine inv_decodeStep h ?_ ((State.acceptedLegal_iff _).mpr fun _ => ⟨i, ?_, ?_⟩)
    · rw [decodeStep_of_not_faulted hf]
      refine State.statusLegal_setBusy_true (State.statusLegal_setWerr (State.statusLegal_setDone_false ?_) false) ?_ ?_
      · exact h.status
      · simp only [State.setWerr_status, State.setDone_status]
      · simp only [State.setWerr_status, State.setDone_status]
        exact hf
    · rw [hcmd, hd]
    · rw [operandCheck_decodeStep, hc]
  · rw [decodeStep_of_faulted hf]
    exact h

theorem decode_encode (i : Instr) : decode (encode i) = .ok i := by cases i <;> rfl

/-- A write to `CMD` while `BUSY` is 0: an undefined word faults, a command faults at its first failing check or is accepted. -/
theorem inv_writeCmd {s t : State} {v : Word} (h : Inv s) (hb : s.busy = false) (he : writeCmd v s = .next t) : Inv t := by
  unfold writeCmd at he
  cases hd : decode v with
  | error e =>
    rw [hd] at he
    cases he
    exact inv_decodeStep_some h hb v (by decide)
  | ok i =>
    rw [hd] at he
    cases (exec_of_not_busy hb i).symm.trans he
    cases hc : operandCheck i s with
    | none => exact inv_decodeStep_none h (decode_encode i) hc
    | some c =>
      have hcause : c ≠ .internal := fun hi => operandCheck_ne_internal i s (hi ▸ hc)
      exact inv_decodeStep_some h hb (encode i) hcause

theorem inv_hostWrite {s t : State} {i : Nat} {v : Word} (h : Inv s) (he : hostWrite i v s = .next t) : Inv t := by
  obtain ⟨-, hw⟩ | ⟨r, hl, ⟨-, hw⟩ | ⟨-, -, hw⟩ | ⟨-, hb, hw⟩ | ⟨-, -, hb, hw⟩⟩ := hostWrite_cases i v s
  · cases hw.symm.trans he
  · cases hw.symm.trans he
    exact h
  · cases hw.symm.trans he
    exact inv_dropWrite h
  · exact inv_writeCmd h hb (hw.symm.trans he)
  · cases hw.symm.trans he
    exact inv_storeReg h hb hl v

/-! ### A completion keeps the invariant -/

theorem macSeq_t (k : PadInput) (msg : List Byte) (h : 8 * (64 + msg.length) < 2 ^ 64) (s : State) :
    (macSeq k msg h s).t = 80 :=
  (hashSeq_rounds _ _).1

/-- Every command but `INIT` ends with the last round of a block (R139). -/
theorem completion_t (i : Instr) (s : State) (hc : operandCheck i s = none) :
    (completion i s hc).t = s.t ∨ (completion i s hc).t = 80 := by
  cases i with
  | init => exact .inl rfl
  | compress => exact .inr (by rw [completion, completeCompress, foldSeq_eq])
  | hash => exact .inr (hashSeq_rounds _ _).1
  | mac | hotp | totp => exact .inr (macSeq_t _ _ _ _)

/-- Only `HOTP` and `TOTP` write `CODE`, and they write a truncated tag (R30). -/
theorem completion_code (i : Instr) (s : State) (hc : operandCheck i s = none) :
    (completion i s hc).code = s.code ∨ ∃ tag, (completion i s hc).code = BitVec.ofNat 32 (truncCode tag) := by
  cases i with
  | init => exact .inl rfl
  | compress => exact .inl (by rw [completion, completeCompress, foldSeq_eq])
  | hash => exact .inl (by rw [completion, completeHash_frame]; rfl)
  | mac => exact .inl (by rw [completion, completeMac_frame]; rfl)
  | hotp => exact .inr ⟨_, (completeHotp_results s).2⟩
  | totp => exact .inr ⟨_, (completeTotp_results s (stepLen_ne_zero_of_check hc)).2⟩

/-- A code has at most 6 digits (R193). -/
theorem truncCode_toNat_lt (tag : Vector Byte 20) : (BitVec.ofNat 32 (truncCode tag)).toNat < codeModulus := by
  rw [BitVec.toNat_ofNat]
  exact Nat.lt_of_le_of_lt (Nat.mod_le _ _) (Nat.mod_lt _ (by decide))

theorem inv_finish_completion {s : State} (h : Inv s) (i : Instr) (hc : operandCheck i s = none) :
    Inv (finish (completion i s hc)) := by
  have hframe := completion_frame i s hc
  constructor
  case params => rw [hframe]; exact h.params
  case status => exact State.statusLegal_finish (by rw [hframe]; exact h.status)
  case accepted => exact State.acceptedLegal_of_not_busy (finish_status _).1
  case mem => rw [hframe]; exact h.mem
  case code =>
    simp only [finish_fields]
    obtain hcode | ⟨tag, hcode⟩ := completion_code i s hc <;> rw [hcode]
    · exact h.code
    · exact truncCode_toNat_lt tag
  case round =>
    simp only [finish_fields]
    obtain ht | ht := completion_t i s hc <;> rw [ht]
    · exact h.round
    · decide

/-! ### The step -/

/-- Under the invariant a running engine's turn completes the accepted command (R44). -/
theorem engineTurn_completes {s : State} (h : Inv s) (hb : s.busy = true) :
    ∃ i, ∃ hc : operandCheck i s = none, engineTurn s = .next (finish (completion i s hc)) := by
  obtain ⟨i, hd, hc⟩ := (State.acceptedLegal_iff s).mp h.accepted hb
  exact ⟨i, hc, (engineTurn_of_decode hb hd).trans (exec_of_busy hb hc)⟩

theorem inv_engineTurn {s t : State} (h : Inv s) (he : engineTurn s = .next t) : Inv t := by
  cases hb : s.busy
  · cases (engineTurn_of_not_busy hb).symm.trans he
    exact h
  · obtain ⟨i, hc, hturn⟩ := engineTurn_completes h hb
    cases hturn.symm.trans he
    exact inv_finish_completion h i hc

/-- Whatever event comes next, it keeps the invariant. -/
theorem inv_handle {s t : State} (e : Event) (h : Inv s) (he : handle e s = .next t) : Inv t := by
  cases e with
  | read i => exact inv_hostRead h he
  | write i v => exact inv_hostWrite h he
  | engine => exact inv_engineTurn h he
  | reset =>
    cases he
    exact inv_applyReset h

/-- Settles O53: the next event is performed on a state that differs in the events to come only. -/
theorem stepKeepsTheInvariant : Obligations.StepKeepsTheInvariant := by
  intro s t h he
  cases hp : s.pending with
  | nil => exact inv_engineTurn h ((step_of_nothing_pending hp).symm.trans he)
  | cons e rest => exact inv_handle e (inv_hostFields h rest s.reads s.draws) ((step_of_pending hp).symm.trans he)

theorem hostRead_ne_fault (i : Nat) (s : State) (f : Fault) : hostRead i s ≠ .fault f := by
  obtain ⟨-, he⟩ | ⟨r, -, value, draws, he⟩ := hostRead_cases i s <;> simp [he]

/-- A write to `CMD` faults in no state: it is decoded with `BUSY` 0 only. -/
theorem hostWrite_ne_fault (i : Nat) (v : Word) (s : State) (f : Fault) : hostWrite i v s ≠ .fault f := by
  obtain ⟨-, he⟩ | ⟨r, -, ⟨-, he⟩ | ⟨-, -, he⟩ | ⟨-, hb, he⟩ | ⟨-, -, -, he⟩⟩ := hostWrite_cases i v s
  case inr.inr.inr.inl =>
    obtain ⟨w, c, hw⟩ := writeCmd_of_not_busy hb v
    simp [he, hw]
  all_goals simp [he]

theorem engineTurn_ne_fault {s : State} (h : Inv s) (f : Fault) : engineTurn s ≠ .fault f := by
  cases hb : s.busy
  · simp [engineTurn_of_not_busy hb]
  · obtain ⟨i, hc, hturn⟩ := engineTurn_completes h hb
    simp [hturn]

theorem handle_ne_fault (e : Event) {s : State} (h : Inv s) (f : Fault) : handle e s ≠ .fault f := by
  cases e with
  | read i => exact hostRead_ne_fault i s f
  | write i v => exact hostWrite_ne_fault i v s f
  | engine => exact engineTurn_ne_fault h f
  | reset => exact nofun

/-- Settles O54: only the engine's turn could fault, and under the invariant it completes. -/
theorem invariantExcludesModelFaults : Obligations.InvariantExcludesModelFaults := by
  intro s f h
  cases hp : s.pending with
  | nil => rw [step_of_nothing_pending hp]; exact engineTurn_ne_fault h f
  | cons e rest => rw [step_of_pending hp]; exact handle_ne_fault e (inv_hostFields h rest s.reads s.draws) f

/-- Settles O58: either way the step is the engine's turn. -/
theorem engineTurnCompletes : Obligations.EngineTurnCompletes := by
  have turn {s : State} (h : Inv s) (hb : s.busy = true) :
      ∃ t, engineTurn s = .next t ∧ t.busy = false ∧ t.doneFlag = true := by
    obtain ⟨i, hc, hturn⟩ := engineTurn_completes h hb
    obtain ⟨hbusy, hdone, -⟩ := finish_status (completion i s hc)
    exact ⟨_, hturn, hbusy, hdone⟩
  rintro s h hb (hp | ⟨rest, hp⟩)
  · rw [step_of_nothing_pending hp]
    exact turn h hb
  · rw [step_of_pending hp]
    exact turn (inv_hostFields h rest s.reads s.draws) hb

end Sys2Proof.Machine
end

section
/-! The byte view of `DIGEST` (10_state.md R33). -/

namespace Sys2Proof.Machine

/-- Byte `r` of word `k` of `DIGEST` is byte `4 k + r` of `TAG`. -/
theorem tagOf_getElem (h : Vector Word 5) (k : Fin 5) (r : Fin 4) :
    (tagOf h)[4 * k.val + r.val] = byteOf h[k.val] r := by
  fin_cases k <;> fin_cases r <;> rfl

/-- Settles O46: byte i is byte `i mod 4` of word `i div 4`. -/
theorem tagIsTheByteViewOfDigest : Obligations.TagIsTheByteViewOfDigest := by
  intro h i hi
  have hbyte := tagOf_getElem h ⟨i / 4, by omega⟩ ⟨i % 4, by omega⟩
  simpa only [Nat.div_add_mod, byteOf] using hbyte

end Sys2Proof.Machine
end

section
/-! The register index space (20_memory.md R60, R61, R64) and the truncation window across the words of `DIGEST` (R68). -/

namespace Sys2Proof.Machine

/-! ### The register map -/

theorem regIndex_lt {p : Params} (hp : p.wellFormed = true) {r : Reg} (h : inInstance p r = true) :
    regIndex r < 2 ^ 25 := by
  simp only [Params.wellFormed, Bool.and_eq_true, decide_eq_true_eq] at hp
  cases r with
  | digest k | blk k =>
    simp only [regIndex]
    omega
  | keyCell o =>
    rw [inInstance_keyCell] at h
    simp only [regIndex, keyBase]
    omega
  | msgCell o =>
    rw [inInstance_msgCell] at h
    simp only [regIndex, msgBase]
    omega
  | _ => simp [regIndex]

/-- Settles O7: the two directions of the map, and the bound on a register's index. -/
theorem registerMapIsOneToOne : Obligations.RegisterMapIsOneToOne := by
  intro p hp i r
  refine ⟨⟨regIndex_of_locate, ?_⟩, fun hl => ?_⟩
  · rintro ⟨rfl, hr⟩
    exact locate_regIndex hp hr
  · obtain ⟨rfl, hr⟩ := regIndex_of_locate hl
    exact regIndex_lt hp hr

theorem controlReg_eq_none_iff : ∀ i < 0x10, controlReg i = none ↔ 0x0A ≤ i := by decide

/-- The map leaves out exactly what lies in none of its five regions, whatever the parameters. -/
theorem locate_eq_none_iff (p : Params) (i : Nat) :
    locate p i = none ↔
      0x0A ≤ i ∧ ¬ (0x10 ≤ i ∧ i < 0x15) ∧ ¬ (0x20 ≤ i ∧ i < 0x30) ∧
      ¬ (keyBase ≤ i ∧ i < keyBase + p.keyCap) ∧ ¬ (msgBase ≤ i ∧ i < msgBase + p.msgCap) := by
  by_cases hctl : i < 0x10
  · rw [locate, if_pos hctl, controlReg_eq_none_iff i hctl]
    simp only [keyBase, msgBase]
    omega
  · have hctl' : 0x0A ≤ i := by omega
    simp only [locate, if_neg hctl, hctl', true_and]
    split_ifs <;> simp [*]

/-- Settles O8: R8's bounds put the regions of the map in rising order, so what is in none of them is the gaps between. -/
theorem unmappedIndicesAreTheListedOnes : Obligations.UnmappedIndicesAreTheListedOnes := by
  intro p hp i
  simp only [Params.wellFormed, Bool.and_eq_true, decide_eq_true_eq] at hp
  rw [locate_eq_none_iff]
  simp only [keyBase, msgBase]
  omega

/-! ### Accesses to an unmapped index -/

theorem hostRead_of_unmapped {s : State} {i : Nat} (hl : locate s.params i = none) :
    hostRead i s = .refused (.unmappedIndex i) := by
  simp [hostRead, hl]

theorem hostWrite_of_unmapped {s : State} {i : Nat} (hl : locate s.params i = none) (v : Word) :
    hostWrite i v s = .refused (.unmappedIndex i) := by
  simp [hostWrite, hl]

/-- Settles O9. -/
theorem unmappedAccessIsRefused : Obligations.UnmappedAccessIsRefused :=
  fun _ _ v hl => ⟨hostRead_of_unmapped hl, hostWrite_of_unmapped hl v⟩

/-! ### The truncation window across two digest words -/

/-- The 32 bits that begin `r` bytes into `hi`, where `lo` follows `hi` (R68). -/
def straddle (hi lo : Word) (r : Nat) : Word := (hi <<< (8 * r)) ||| (lo >>> (32 - 8 * r))

theorem straddle_zero (hi lo : Word) : straddle hi lo 0 = hi := by
  have hlo : lo >>> 32 = 0 := BitVec.ushiftRight_eq_zero (Nat.le_refl 32)
  simp [straddle, hlo]

/-- The first bytes of the straddling word are the last of `hi`. -/
theorem byteOf_straddle_hi (hi lo : Word) {r : Nat} {b : Fin 4} (h : r + b.val < 4) :
    byteOf (straddle hi lo r) b = byteOf hi ⟨r + b.val, h⟩ := by
  refine BitVec.eq_of_getLsbD_eq fun j hj => ?_
  have hlo : lo.getLsbD (32 - 8 * r + (24 - 8 * b.val + j)) = false := BitVec.getLsbD_of_ge _ _ (by omega)
  have hge : ¬ 24 - 8 * b.val + j < 8 * r := by omega
  have hpos : 24 - 8 * b.val + j - 8 * r = 24 - 8 * (r + b.val) + j := by omega
  have hhi := BitVec.getLsbD_eq_getElem (x := hi) (show 24 - 8 * (r + b.val) + j < 32 by omega)
  simp [byteOf, straddle, hj, hlo, hge, hpos, hhi, show 24 - 8 * b.val + j < 32 by omega]

/-- Its other bytes are the first of `lo`. -/
theorem byteOf_straddle_lo (hi lo : Word) {r : Nat} {b : Fin 4} (hr : r < 4) (h : 4 ≤ r + b.val) :
    byteOf (straddle hi lo r) b = byteOf lo ⟨r + b.val - 4, by omega⟩ := by
  refine BitVec.eq_of_getLsbD_eq fun j hj => ?_
  have hlt : 24 - 8 * b.val + j < 8 * r := by omega
  have hpos : 32 - 8 * r + (24 - 8 * b.val + j) = 24 - 8 * (r + b.val - 4) + j := by omega
  simp [byteOf, straddle, hj, hlt, hpos]

/-- The four bytes of `TAG` from byte `4 k + r` on are those of words `k` and `k + 1` of `DIGEST` straddled. -/
theorem tagOf_getElem_straddle (h : Vector Word 5) {k r : Nat} (hk : k < 4) (hr : r < 4) (b : Fin 4) :
    (tagOf h)[4 * k + r + b.val] = byteOf (straddle h[k] h[k + 1] r) b := by
  by_cases hb : r + b.val < 4
  · rw [byteOf_straddle_hi _ _ hb, ← tagOf_getElem h ⟨k, by omega⟩ ⟨r + b.val, hb⟩]
    simp only [Nat.add_assoc]
  · rw [byteOf_straddle_lo _ _ hr (by omega), ← tagOf_getElem h ⟨k + 1, by omega⟩ ⟨r + b.val - 4, by omega⟩]
    simp only [show 4 * (k + 1) + (r + b.val - 4) = 4 * k + r + b.val by omega]

theorem rawWindow_of_truncOffset {tag : Vector Byte 20} {o : Nat} (h : truncOffset tag = o) (ho : o < 17) :
    rawWindow tag = be32 tag[o] tag[o + 1] tag[o + 2] tag[o + 3] := by
  subst h
  rfl

/-- Settles O49: the window's bytes are the straddling word's, and at `r = 0` that word is `DIGEST[k]`. -/
theorem windowStraddlesDigestWords : Obligations.WindowStraddlesDigestWords := by
  intro h k r hk hr ho
  have hword : rawWindow (tagOf h) = straddle h[k] h[k + 1] r := by
    rw [rawWindow_of_truncOffset ho (by omega), ← be32_byteOf (straddle h[k] h[k + 1] r)]
    congr 1
    exacts [tagOf_getElem_straddle h hk hr 0, tagOf_getElem_straddle h hk hr 1, tagOf_getElem_straddle h hk hr 2,
      tagOf_getElem_straddle h hk hr 3]
  rw [hword]
  split_ifs with hzero
  · subst hzero
    exact straddle_zero _ _
  · rfl

end Sys2Proof.Machine
end

section
/-! Command words (30_encoding.md R90 to R92, R95): the decoder inverts the encoder, and accepts nothing else. -/

namespace Sys2Proof.Machine

/-! ### The decoder's image -/

theorem rsvField_encode (i : Instr) : rsvField (encode i) = 0 := by cases i <;> rfl

/-- The opcode map of R92, read backwards. -/
theorem opcodeInstr_eq_some_iff (n : Nat) (i : Instr) : opcodeInstr n = some i ↔ n = (encode i).toNat := by
  unfold opcodeInstr
  constructor
  · intro h
    split at h <;> cases h <;> rfl
  · rintro rfl
    cases i <;> rfl

/-- A word with `RSV` = 0 is its field `OPC`. -/
theorem toNat_opcField_of_rsvField {v : Word} (h : rsvField v = 0) : (opcField v).toNat = v.toNat := by
  have hv : rsvField v ++ opcField v = v.extractLsb' 0 32 :=
    BitVec.extractLsb'_append_extractLsb'_eq_extractLsb' rfl
  have hsum := toNat_append_eq_add (rsvField v) (opcField v)
  rw [hv, BitVec.extractLsb'_eq_self, h] at hsum
  simpa using hsum.symm

/-- The only word that decodes to a command is the command's own (R92). -/
theorem decode_eq_ok_iff (v : Word) (i : Instr) : decode v = .ok i ↔ v = encode i := by
  constructor
  · intro h
    have hrsv : rsvField v = 0 := by
      by_contra hne
      rw [decode, if_neg hne] at h
      cases h
    have hopc := (opcodeInstr_eq_some_iff _ i).mp (opcode_of_decode h)
    rw [toNat_opcField_of_rsvField hrsv] at hopc
    exact BitVec.eq_of_toNat_eq hopc
  · rintro rfl
    exact decode_encode i

/-- Settles O1. -/
theorem encodedCommandDecodesBack : Obligations.EncodedCommandDecodesBack :=
  fun i => ⟨decode_encode i, rsvField_encode i⟩

/-- Settles O2: the six words are the six values of `encode`. -/
theorem onlySixWordsDecode : Obligations.OnlySixWordsDecode := by
  intro v i
  rw [decode_eq_ok_iff]
  cases i <;> simp [encode]

/-- Settles O3: five closed words. -/
theorem sampleWordsDecode : Obligations.SampleWordsDecode := by
  unfold Obligations.SampleWordsDecode
  decide

theorem tableWord_toNat (v : Word) : tableWord 32 v.toNat = v := by
  rw [tableWord, Nat.mod_eq_of_lt v.isLt, BitVec.ofNat_toNat, BitVec.setWidth_eq]

/-- Settles O4: on 32 bits the table's word is the value itself. -/
theorem tableWordsDecode : Obligations.TableWordsDecode := by
  intro i
  rw [decodeTableWord, tableWord_toNat, decode_encode]

/-! ### The decode step for any word -/

/-- The first check of R93 that a word written to `CMD` fails: its own legality, then its command's operand checks. -/
def wordCheck (v : Word) (s : State) : Option Cause :=
  match decode v with
  | .ok i => operandCheck i s
  | .error _ => some .illegalCmd

/-- A write to `CMD` while `BUSY` is 0 is the decode step for the word, whatever the word (R93). -/
theorem hostWrite_cmd_eq_decodeStep {s : State} (hb : s.busy = false) (v : Word) :
    hostWrite 0x00 v s = .next (decodeStep v (wordCheck v s) s) := by
  rw [hostWrite_cmd hb, writeCmd, wordCheck]
  cases hd : decode v with
  | error e => rfl
  | ok i =>
    obtain rfl := (decode_eq_ok_iff v i).mp hd
    exact exec_of_not_busy hb i

/-- What every decode step leaves while `FAULT` is 0, whether it faults or accepts. -/
theorem decodeStep_leaves {s : State} (hf : s.faulted = false) (v : Word) (c : Option Cause) :
    decodeStep v c s = { s with cmd := v, status := (decodeStep v c s).status } ∧
    (decodeStep v c s).doneFlag = false ∧ (decodeStep v c s).werr = false := by
  obtain ⟨hcmd, hdone, hwerr⟩ :
      (decodeStep v c s).cmd = v ∧ (decodeStep v c s).doneFlag = false ∧ (decodeStep v c s).werr = false := by
    cases c with
    | none =>
      obtain ⟨hcmd, -, hdone, -, hwerr, -⟩ := decodeStep_none_status hf v
      exact ⟨hcmd, hdone, hwerr⟩
    | some c =>
      obtain ⟨hcmd, -, hdone, -, hwerr, -⟩ := decodeStep_some_status hf v c
      exact ⟨hcmd, hdone, hwerr⟩
  refine ⟨?_, hdone, hwerr⟩
  conv_lhs => rw [decodeStep_frame, hcmd]

/-- A word is some command's just when `RSV` is 0 and `OPC` is 1 to 6 (R95). -/
theorem exists_encode_eq_iff (v : Word) :
    (∃ i, v = encode i) ↔ v.toNat / 2 ^ 8 = 0 ∧ v.toNat % 2 ^ 8 ∈ [1, 2, 3, 4, 5, 6] := by
  constructor
  · rintro ⟨i, rfl⟩
    cases i <;> decide
  · rintro ⟨hrsv, hopc⟩
    have hv : v.toNat % 2 ^ 8 = v.toNat := by omega
    rw [hv] at hopc
    simp only [List.mem_cons, List.not_mem_nil, or_false] at hopc
    rcases hopc with h | h | h | h | h | h
    exacts [⟨.init, BitVec.eq_of_toNat_eq h⟩, ⟨.compress, BitVec.eq_of_toNat_eq h⟩, ⟨.hash, BitVec.eq_of_toNat_eq h⟩,
      ⟨.mac, BitVec.eq_of_toNat_eq h⟩, ⟨.hotp, BitVec.eq_of_toNat_eq h⟩, ⟨.totp, BitVec.eq_of_toNat_eq h⟩]

/-- A word that is no command's fails the first check. -/
theorem wordCheck_of_illegal {v : Word} (h : ¬ ∃ i, v = encode i) (s : State) : wordCheck v s = some .illegalCmd := by
  unfold wordCheck
  cases hd : decode v with
  | error e => rfl
  | ok i => exact absurd ⟨i, (decode_eq_ok_iff v i).mp hd⟩ h

theorem wordCheck_encode (i : Instr) (s : State) : wordCheck (encode i) s = operandCheck i s := by
  rw [wordCheck, decode_encode]

/-- The operand checks in R93's order, by the value of `OPC`. -/
theorem operandCheck_eq (i : Instr) (s : State) :
    operandCheck i s =
      if (encode i).toNat % 2 ^ 8 ∈ [3, 4] ∧ s.params.msgCap < s.msgLen.toNat then some .msgLenRange
      else if (encode i).toNat % 2 ^ 8 ∈ [4, 5, 6] ∧ s.params.keyCap < s.keyLen.toNat then some .keyLenRange
      else if (encode i).toNat % 2 ^ 8 = 6 ∧ s.stepLen = 0 then some .stepZero
      else none := by
  cases i with
  | init | compress => simp [operandCheck, encode]
  | hash => simp [operandCheck, encode, checkMsgLen]
  | hotp => simp [operandCheck, encode, checkKeyLen]
  | mac =>
    by_cases hm : s.params.msgCap < s.msgLen.toNat <;> simp [operandCheck, encode, firstCause, checkMsgLen, checkKeyLen, hm]
  | totp =>
    by_cases hk : s.params.keyCap < s.keyLen.toNat <;> simp [operandCheck, encode, firstCause, checkKeyLen, checkStep, hk]

/-- The four checks of R93 in its order. -/
theorem wordCheck_eq (v : Word) (s : State) :
    wordCheck v s =
      if v.toNat / 2 ^ 8 ≠ 0 ∨ v.toNat % 2 ^ 8 ∉ [1, 2, 3, 4, 5, 6] then some .illegalCmd
      else if v.toNat % 2 ^ 8 ∈ [3, 4] ∧ s.params.msgCap < s.msgLen.toNat then some .msgLenRange
      else if v.toNat % 2 ^ 8 ∈ [4, 5, 6] ∧ s.params.keyCap < s.keyLen.toNat then some .keyLenRange
      else if v.toNat % 2 ^ 8 = 6 ∧ s.stepLen = 0 then some .stepZero
      else none := by
  by_cases hlegal : ∃ i, v = encode i
  · obtain ⟨hrsv, hopc⟩ := (exists_encode_eq_iff v).mp hlegal
    obtain ⟨i, rfl⟩ := hlegal
    rw [wordCheck_encode, operandCheck_eq, if_neg (c := _ ∨ _) (not_or.mpr ⟨not_not.mpr hrsv, not_not.mpr hopc⟩)]
  · rw [wordCheck_of_illegal hlegal, if_pos (not_and_or.mp (mt (exists_encode_eq_iff v).mpr hlegal))]

/-- Settles O16: such a word is no command's. -/
theorem illegalWordFaults : Obligations.IllegalWordFaults := by
  intro s v hb hf hv
  have hillegal : ¬ ∃ i, v = encode i := by
    rintro ⟨i, rfl⟩
    cases i <;> exact hv (by decide)
  have hw := hostWrite_cmd_eq_decodeStep hb v
  rw [wordCheck_of_illegal hillegal] at hw
  obtain ⟨hframe, hdone, hwerr⟩ := decodeStep_leaves hf v (some .illegalCmd)
  obtain ⟨-, hbusy, -, hfault, -, hcause⟩ := decodeStep_some_status hf v .illegalCmd
  exact ⟨_, hw, hframe, hfault, hcause, hdone, hwerr, hbusy.trans hb⟩

/-- Settles O17: one case per line of the rule. -/
theorem decodeMakesTheChecksInOrder : Obligations.DecodeMakesTheChecksInOrder := by
  intro s v hb hf
  obtain ⟨hframe, hdone, hwerr⟩ := decodeStep_leaves hf v (wordCheck v s)
  refine ⟨_, hostWrite_cmd_eq_decodeStep hb v, hframe, hdone, hwerr, ?_⟩
  have hraise (c : Cause) : (decodeStep v (some c) s).faulted = true ∧ (decodeStep v (some c) s).cause = causeCode c ∧
      (decodeStep v (some c) s).busy = false := by
    obtain ⟨-, hbusy, -, hfault, -, hcause⟩ := decodeStep_some_status hf v c
    exact ⟨hfault, hcause, hbusy.trans hb⟩
  rw [wordCheck_eq]
  split_ifs
  · exact hraise .illegalCmd
  · exact hraise .msgLenRange
  · exact hraise .keyLenRange
  · exact hraise .stepZero
  · obtain ⟨-, hbusy, -, hfault, -⟩ := decodeStep_none_status hf v
    exact ⟨hfault, hbusy⟩

end Sys2Proof.Machine
end

section
/-! What each command writes (30_encoding.md R94): the frame of its decode and of its completion. -/

namespace Sys2Proof.Machine

/-- Everything a command's step can do when it answers a next state. -/
theorem exec_next_cases {i : Instr} {s t : State} (h : exec i s = .next t) :
    (s.busy = true ∧ ∃ hc : operandCheck i s = none, t = finish (completion i s hc)) ∨
    (s.busy = false ∧ t = decodeStep (encode i) (operandCheck i s) s) := by
  obtain ⟨hb, hc, he⟩ | ⟨-, -, he⟩ | ⟨hb, he⟩ := exec_cases i s
  · cases he.symm.trans h
    exact .inl ⟨hb, hc, rfl⟩
  · cases he.symm.trans h
  · cases he.symm.trans h
    exact .inr ⟨hb, rfl⟩

/-- A command's step keeps whatever its completion keeps, `CMD` and `STATUS` apart. -/
theorem exec_keeps {α : Type} (f : State → α) {i : Instr} {s t : State} (h : exec i s = .next t)
    (hf : ∀ (u : State) (c st : Word), f { u with cmd := c, status := st } = f u)
    (hcompletion : ∀ hc, f (completion i s hc) = f s) : f t = f s := by
  obtain ⟨-, hc, rfl⟩ | ⟨-, rfl⟩ := exec_next_cases h
  · exact (hf (completion i s hc) _ _).trans (hcompletion hc)
  · rw [decodeStep_frame]
    exact hf s _ _

/-- What every command's step leaves unchanged (R93, R94): at decode all but `CMD` and `STATUS`; at complete `CMD` and the bits of
`STATUS` from 2 on; and always the other operands, the cells and the model's own fields. -/
theorem exec_frame {i : Instr} {s t : State} (h : exec i s = .next t) :
    (s.busy = false → t = { s with cmd := t.cmd, status := t.status }) ∧
    (s.busy = true → ∀ m, m < 32 → m ≠ 0 → m ≠ 1 → t.status.getLsbD m = s.status.getLsbD m) ∧
    (s.busy = true → t.cmd = s.cmd) ∧
    t = { engineRegsOf s t with
      cmd := t.cmd, status := t.status, code := t.code, ctrHi := t.ctrHi, ctrLo := t.ctrLo } := by
  obtain ⟨hb, hc, rfl⟩ | ⟨hb, rfl⟩ := exec_next_cases h
  · refine ⟨fun hb' => by simp [hb] at hb', fun _ m hm h0 h1 => ?_, fun _ => ?_, ?_⟩
    · rw [finish_status_bit _ m hm h0 h1, completion_status]
    · rw [completion_frame]
      rfl
    · rw [completion_frame]
      rfl
  · refine ⟨fun _ => decodeStep_frame _ _ s, fun hb' => by simp [hb] at hb', fun hb' => by simp [hb] at hb', ?_⟩
    rw [decodeStep_frame]
    rfl

/-- `INIT` and `COMPRESS` read `BLK` at most. -/
theorem completion_blk {i : Instr} (hi : i = .init ∨ i = .compress) (s : State) (hc : operandCheck i s = none) :
    (completion i s hc).blk = s.blk := by
  rcases hi with rfl | rfl
  · rfl
  · rw [completion, completeCompress, foldSeq_eq]

/-- The registers of the MAC builder stay as they were (log 6). -/
theorem completion_macRegs {i : Instr} (hi : i = .init ∨ i = .compress ∨ i = .hash) (s : State)
    (hc : operandCheck i s = none) : (completion i s hc).k0 = s.k0 ∧ (completion i s hc).inner = s.inner := by
  rcases hi with rfl | rfl | rfl
  · exact ⟨rfl, rfl⟩
  · rw [completion, completeCompress, foldSeq_eq]
    exact ⟨rfl, rfl⟩
  · rw [completion, completeHash, hashSeq_eq]
    exact ⟨rfl, rfl⟩

/-- Only `HOTP` and `TOTP` write `CODE` (R30). -/
theorem completion_code_of_ne {i : Instr} (hhotp : i ≠ .hotp) (htotp : i ≠ .totp) (s : State)
    (hc : operandCheck i s = none) : (completion i s hc).code = s.code := by
  cases i with
  | hotp => exact absurd rfl hhotp
  | totp => exact absurd rfl htotp
  | init => rfl
  | compress => rw [completion, completeCompress, foldSeq_eq]
  | hash => rw [completion, completeHash_frame]; rfl
  | mac => rw [completion, completeMac_frame]; rfl

/-- Only `TOTP` writes `CTR` (R27). -/
theorem completion_counter_of_ne {i : Instr} (htotp : i ≠ .totp) (s : State) (hc : operandCheck i s = none) :
    (completion i s hc).ctrHi = s.ctrHi ∧ (completion i s hc).ctrLo = s.ctrLo := by
  cases i with
  | totp => exact absurd rfl htotp
  | init => exact ⟨rfl, rfl⟩
  | compress => rw [completion, completeCompress, foldSeq_eq]; exact ⟨rfl, rfl⟩
  | hash => rw [completion, completeHash_frame]; exact ⟨rfl, rfl⟩
  | mac => rw [completion, completeMac_frame]; exact ⟨rfl, rfl⟩
  | hotp => rw [completion, completeHotp_frame]; exact ⟨rfl, rfl⟩

theorem exec_code_of_ne {i : Instr} {s t : State} (h : exec i s = .next t) (hhotp : i ≠ .hotp) (htotp : i ≠ .totp) :
    t.code = s.code :=
  exec_keeps State.code h (fun _ _ _ => rfl) (completion_code_of_ne hhotp htotp s)

theorem exec_counter_of_ne {i : Instr} {s t : State} (h : exec i s = .next t) (htotp : i ≠ .totp) :
    t.ctrHi = s.ctrHi ∧ t.ctrLo = s.ctrLo :=
  ⟨exec_keeps State.ctrHi h (fun _ _ _ => rfl) fun hc => (completion_counter_of_ne htotp s hc).1,
    exec_keeps State.ctrLo h (fun _ _ _ => rfl) fun hc => (completion_counter_of_ne htotp s hc).2⟩

/-- Settles O28: the frame of every command, and what these three keep beyond it. -/
theorem digestCommandsFrame : Obligations.DigestCommandsFrame := by
  intro i s t hi h
  obtain ⟨hdecode, hbits, hcmd, hframe⟩ := exec_frame h
  have hblk (hi' : i = .init ∨ i = .compress) : t.blk = s.blk :=
    exec_keeps State.blk h (fun _ _ _ => rfl) (completion_blk hi' s)
  have hcode : t.code = s.code := exec_code_of_ne h (by rintro rfl; simp at hi) (by rintro rfl; simp at hi)
  obtain ⟨hctrHi, hctrLo⟩ := exec_counter_of_ne h (by rintro rfl; simp at hi)
  have hk0 : t.k0 = s.k0 := exec_keeps State.k0 h (fun _ _ _ => rfl) fun hc => (completion_macRegs hi s hc).1
  have hinner : t.inner = s.inner :=
    exec_keeps State.inner h (fun _ _ _ => rfl) fun hc => (completion_macRegs hi s hc).2
  refine ⟨hdecode, hbits, hcmd, hblk, ?_, ?_, hctrHi, hctrLo, ?_, ?_, ?_, hcode, hk0, hinner, ?_⟩
  all_goals rw [hframe]
  exacts [rfl, rfl, rfl, rfl, rfl, ⟨fun _ => rfl, rfl, rfl, rfl, rfl, rfl, rfl⟩]

/-- Settles O29: the frame of every command, with `CODE` and `CTR` where the command does not write them. -/
theorem macCommandsFrame : Obligations.MacCommandsFrame := by
  intro i s t _ h
  obtain ⟨hdecode, hbits, hcmd, hframe⟩ := exec_frame h
  have hcode (hi : i = .mac) : t.code = s.code := exec_code_of_ne h (by simp [hi]) (by simp [hi])
  have hctr (hi : i = .mac ∨ i = .hotp) : t.ctrHi = s.ctrHi ∧ t.ctrLo = s.ctrLo :=
    exec_counter_of_ne h (by rintro rfl; simp at hi)
  refine ⟨hdecode, hbits, hcmd, hcode, hctr, ?_⟩
  rw [hframe]
  exact ⟨rfl, rfl, rfl, rfl, rfl, fun _ => rfl, rfl, rfl, rfl, rfl, rfl, rfl⟩

end Sys2Proof.Machine
end

section
/-! Whole commands, from the host's write to `CMD` to the completion (30_encoding.md R94, R97, R99): what a command performed
from an idle, unfaulted state leaves. -/

namespace Sys2Proof.Machine

/-! ### One command performed -/

/-- What an accepted command leaves once it is performed: the decode of its word, then its completion. -/
def performedState (i : Instr) (s : State) (hc : operandCheck i s = none) : State :=
  finish (completion i (decodeStep (encode i) none s) ((operandCheck_decodeStep i (encode i) none s).trans hc))

/-- Idle, unfaulted, its operand checks passed: both steps of the command answer a next state (R93, R44). -/
theorem performed_eq {i : Instr} {s : State} (hb : s.busy = false) (hf : s.faulted = false)
    (hc : operandCheck i s = none) : performed i s = some (performedState i s hc) := by
  have hwrite : hostWrite (regIndex .cmd) (encode i) s = .next (decodeStep (encode i) none s) := by
    rw [← hc, ← exec_of_not_busy hb]
    exact hostWrite_command hb (decode_encode i)
  obtain ⟨hcmd, hbusy, -⟩ := decodeStep_none_status hf (encode i)
  have hturn : engineTurn (decodeStep (encode i) none s) = .next (performedState i s hc) :=
    (engineTurn_of_decode hbusy (by rw [hcmd, decode_encode])).trans (exec_of_busy hbusy _)
  simp only [performed, hwrite, hturn]

/-- A command performed leaves OTPCORE idle and unfaulted, ready for the next. -/
theorem performedState_idle {i : Instr} {s : State} (hf : s.faulted = false) (hc : operandCheck i s = none) :
    (performedState i s hc).busy = false ∧ (performedState i s hc).faulted = false := by
  obtain ⟨hbusy, -, hfault, -⟩ :=
    finish_status (completion i (decodeStep (encode i) none s) ((operandCheck_decodeStep i (encode i) none s).trans hc))
  obtain ⟨-, -, -, hf', -⟩ := decodeStep_none_status hf (encode i)
  refine ⟨hbusy, hfault.trans ?_⟩
  rw [State.faulted, completion_status]
  exact hf'

/-! ### The block-level hash (R99) -/

theorem performedState_init_digest (s : State) : (performedState .init s rfl).digest = iv := by
  simp [performedState, completion, completeInit]

theorem performedState_compress_digest (s : State) :
    (performedState .compress s rfl).digest = compress s.digest s.blk := by
  simp [performedState, completion, completeCompress, foldSeq_eq]

/-- Each `COMPRESS` chains its block into `DIGEST`, and leaves OTPCORE ready for the next. -/
theorem compressEach_digest (bs : List Block) {s : State} (hb : s.busy = false) (hf : s.faulted = false) :
    ∃ u, compressEach bs s = some u ∧ u.digest = bs.foldl compress s.digest := by
  induction bs generalizing s with
  | nil => exact ⟨s, rfl, rfl⟩
  | cons b rest ih =>
    obtain ⟨hb', hf'⟩ := performedState_idle (i := .compress) (s := { s with blk := b }) hf rfl
    obtain ⟨u, hu, hdigest⟩ := ih hb' hf'
    rw [performedState_compress_digest] at hdigest
    refine ⟨u, ?_, hdigest⟩
    rw [compressEach, performed_eq (s := { s with blk := b }) hb hf rfl]
    exact hu

/-- Settles O31: `INIT` loads `IV`, and `Sha` is the same chain of `Compress` over the padded blocks. -/
theorem compressEachBlockEqualsSha : Obligations.CompressEachBlockEqualsSha := by
  intro m s hb hf
  obtain ⟨hb', hf'⟩ := performedState_idle (i := .init) hf rfl
  obtain ⟨u, hu, hdigest⟩ := compressEach_digest (pad m) hb' hf'
  rw [performedState_init_digest] at hdigest
  exact ⟨_, u, performed_eq hb hf rfl, hu, hdigest⟩

/-! ### What `HASH` and `MAC` depend on (R94) -/

@[simp] theorem messageBytes_decodeStep (v : Word) (c : Option Cause) (s : State) :
    messageBytes (decodeStep v c s) = messageBytes s :=
  messageBytes_congr (by simp) (fun _ _ => by simp)

@[simp] theorem keyBytes_decodeStep (v : Word) (c : Option Cause) (s : State) :
    keyBytes (decodeStep v c s) = keyBytes s :=
  keyBytes_congr (by simp) (fun _ _ => by simp)

/-- `HASH` performed leaves `Sha` of the message and its last block. -/
theorem performedState_hash (s : State) (hc : operandCheck .hash s = none) :
    (performedState .hash s hc).digest = sha (messageInput s) ∧
    (performedState .hash s hc).blk = lastBlock (messageInput s) := by
  have hm : messageInput (decodeStep (encode .hash) none s) = messageInput s :=
    messageInput_congr (messageBytes_decodeStep _ _ s)
  simp [performedState, completion, completeHash, hm]

/-- `MAC` performed leaves the tag of the message under the key and the last outer block. -/
theorem performedState_mac (s : State) (hc : operandCheck .mac s = none) :
    (performedState .mac s hc).digest = macOf (keyInput s) (messageBytes s) (messageBytes_fits s) ∧
    (performedState .mac s hc).blk = lastBlock (outerInput (normalizeKey (keyInput s))
      (tagOf (innerDigest (keyInput s) (messageBytes s) (messageBytes_fits s)))) := by
  have hk : keyInput (decodeStep (encode .mac) none s) = keyInput s := keyInput_congr (keyBytes_decodeStep _ _ s)
  simp [performedState, completion, completeMac, hk]

/-- Settles O32: `DIGEST` and `BLK` are functions of the message. -/
theorem hashDependsOnTheMessageOnly : Obligations.HashDependsOnTheMessageOnly := by
  intro s1 s2 hb1 hf1 hb2 hf2 hlen hcap1 hcap2 hcells
  have hm : messageInput s1 = messageInput s2 := messageInput_congr (messageBytes_congr hlen hcells)
  have hc1 : operandCheck .hash s1 = none := (checkMsgLen_eq_none s1).mpr hcap1
  have hc2 : operandCheck .hash s2 = none := (checkMsgLen_eq_none s2).mpr hcap2
  obtain ⟨hdigest1, hblk1⟩ := performedState_hash s1 hc1
  obtain ⟨hdigest2, hblk2⟩ := performedState_hash s2 hc2
  refine ⟨_, _, performed_eq hb1 hf1 hc1, performed_eq hb2 hf2 hc2, ?_, ?_⟩
  · rw [hdigest1, hdigest2, hm]
  · rw [hblk1, hblk2, hm]

/-- Settles O33: `DIGEST` and `BLK` are functions of the key and the message. -/
theorem macDependsOnKeyAndMessageOnly : Obligations.MacDependsOnKeyAndMessageOnly := by
  intro s1 s2 hb1 hf1 hb2 hf2 hmlen hmcap1 hmcap2 hklen hkcap1 hkcap2 hmcells hkcells
  have hm : messageBytes s1 = messageBytes s2 := messageBytes_congr hmlen hmcells
  have hk : keyInput s1 = keyInput s2 := keyInput_congr (keyBytes_congr hklen hkcells)
  have hc1 : operandCheck .mac s1 = none :=
    (firstCause_eq_none _ _).mpr ⟨(checkMsgLen_eq_none s1).mpr hmcap1, (checkKeyLen_eq_none s1).mpr hkcap1⟩
  have hc2 : operandCheck .mac s2 = none :=
    (firstCause_eq_none _ _).mpr ⟨(checkMsgLen_eq_none s2).mpr hmcap2, (checkKeyLen_eq_none s2).mpr hkcap2⟩
  obtain ⟨hdigest1, hblk1⟩ := performedState_mac s1 hc1
  obtain ⟨hdigest2, hblk2⟩ := performedState_mac s2 hc2
  refine ⟨_, _, performed_eq hb1 hf1 hc1, performed_eq hb2 hf2 hc2, ?_, ?_⟩
  · simp only [hdigest1, hdigest2, hk, hm]
  · simp only [hblk1, hblk2, hk, hm]

end Sys2Proof.Machine
end

section
/-! Proofs about the padder (40_padder.md R110 to R114): the padded length, the padded bytes one by one, and the words of
the blocks. -/

namespace Sys2Proof.Machine

/-! ### Lengths (R111, R112) -/

/-- The zeros fill up whole blocks: `L` bytes, the marker, the zeros and the 8 bytes of the length field. -/
theorem add_padZeros (len : Nat) : len + 1 + padZeros len + 8 = 64 * numBlocks len := by
  rw [padZeros, numBlocks]
  omega

@[simp] theorem padBytes_length (m : PadInput) : (padBytes m).length = 64 * numBlocks m.bytes.length := by
  rw [← add_padZeros]
  simp [padBytes, Nat.add_assoc, Nat.add_comm 1]

@[simp] theorem pad_length (m : PadInput) : (pad m).length = numBlocks m.bytes.length := by simp [pad]

/-- Settles O42: the number of zeros completes the last block. -/
theorem paddedLengthIsWholeBlocks : Obligations.PaddedLengthIsWholeBlocks :=
  fun m => ⟨padBytes_length m, pad_length m⟩

/-! ### The four parts of the padded message (R113) -/

theorem padBytes_getElem?_message {m : PadInput} {j : Nat} (hj : j < m.bytes.length) :
    (padBytes m)[j]? = m.bytes[j]? := by
  simp only [padBytes, List.append_assoc]
  exact List.getElem?_append_left hj

theorem padBytes_getElem?_marker (m : PadInput) : (padBytes m)[m.bytes.length]? = some padMarker := by
  simp [padBytes]

theorem padBytes_getElem?_zeros {m : PadInput} {j : Nat} (hlo : m.bytes.length < j)
    (hhi : j < (padBytes m).length - 8) : (padBytes m)[j]? = some 0 := by
  rw [padBytes_length, ← add_padZeros] at hhi
  rw [padBytes, List.getElem?_append_left (by simp; omega), List.getElem?_append_right (by simp; omega), zeroBytes,
    List.getElem?_replicate_of_lt (by simp; omega)]

/-- The value of the length field (R110 step 4). -/
abbrev bitLength (m : PadInput) : BitVec 64 := BitVec.ofNat 64 (8 * m.bytes.length)

/-- The bit length fits its field, by R110's bound on the input. -/
theorem bitLength_toNat (m : PadInput) : (bitLength m).toNat = 8 * m.bytes.length := Nat.mod_eq_of_lt m.fits

theorem padBytes_getElem?_bitLength (m : PadInput) (k : Nat) :
    (padBytes m)[(padBytes m).length - 8 + k]? = (toBE64 (bitLength m))[k]? := by
  have hfront : (padBytes m).length - 8 =
      (m.bytes ++ [padMarker] ++ zeroBytes (padZeros m.bytes.length)).length := by
    rw [padBytes, List.length_append, toBE64_length, Nat.add_sub_cancel]
  rw [hfront, padBytes, List.getElem?_append_right (Nat.le_add_right _ _), Nat.add_sub_cancel_left]

/-- Settles O43: each range of `j` is one part of the padded message. -/
theorem paddedBytesOneByOne : Obligations.PaddedBytesOneByOne := by
  intro m j _
  split
  case isTrue hmsg => exact padBytes_getElem?_message hmsg
  split
  case isTrue hmark => exact hmark ▸ padBytes_getElem?_marker m
  split
  case isTrue hzero => exact padBytes_getElem?_zeros (by omega) hzero
  case isFalse hlast => rw [← padBytes_getElem?_bitLength, Nat.add_sub_cancel' (by omega)]

/-! ### The words of a block (R67, R114) -/

theorem packBlock_getElem (c : List Byte) {j : Nat} (hj : j < 16) : (packBlock c)[j] =
    be32 (c.getD (4 * j) 0) (c.getD (4 * j + 1) 0) (c.getD (4 * j + 2) 0) (c.getD (4 * j + 3) 0) := by
  simp [packBlock]

theorem chunk_getD (l : List Byte) (i : Nat) {k : Nat} (hk : k < 64) :
    ((l.drop (64 * i)).take 64).getD k 0 = l.getD (64 * i + k) 0 := by
  simp [List.getD_eq_getElem?_getD, List.getElem?_take_of_lt hk]

/-- Word `j` of block `i` reads four bytes of the padded message. -/
theorem pad_getElem_getElem (m : PadInput) {i j : Nat} (hi : i < (pad m).length) (hj : j < 16) :
    ((pad m)[i])[j] = be32 ((padBytes m).getD (64 * i + 4 * j) 0) ((padBytes m).getD (64 * i + 4 * j + 1) 0)
      ((padBytes m).getD (64 * i + 4 * j + 2) 0) ((padBytes m).getD (64 * i + 4 * j + 3) 0) := by
  have hblock : (pad m)[i] = packBlock (((padBytes m).drop (64 * i)).take 64) := by simp [pad]
  simp only [hblock, packBlock_getElem, Nat.add_assoc]
  rw [chunk_getD _ _ (by omega), chunk_getD _ _ (by omega), chunk_getD _ _ (by omega), chunk_getD _ _ (by omega)]

/-- Settles O44: the blocks cover the padded bytes exactly, so all four bytes are there. -/
theorem blockWordsArePaddedBytes : Obligations.BlockWordsArePaddedBytes := by
  intro m i hi j
  have hbyte (k : Nat) (hk : k < 64) :
      (padBytes m)[64 * i + k]? = some ((padBytes m).getD (64 * i + k) 0) := by
    have hin : 64 * i + k < (padBytes m).length := by
      rw [pad_length] at hi
      rw [padBytes_length]
      omega
    rw [List.getD_eq_getElem _ _ hin, List.getElem?_eq_getElem hin]
  have hj := j.isLt
  exact ⟨_, _, _, _, hbyte _ (by omega), hbyte (4 * j.val + 1) (by omega), hbyte (4 * j.val + 2) (by omega),
    hbyte (4 * j.val + 3) (by omega), pad_getElem_getElem m hi hj⟩

/-! ### The length field in the last block (R114) -/

theorem hiWord_toNat (v : BitVec 64) : (hiWord v).toNat = v.toNat / 2 ^ 32 := by
  have hv := joinWords_toNat (hiWord v) (loWord v)
  rw [joinWords_hiWord_loWord] at hv
  omega

theorem loWord_toNat (v : BitVec 64) : (loWord v).toNat = v.toNat % 2 ^ 32 := by
  simp [loWord]

/-- Word `14 + j` of the last block is word `j` of the length field. -/
theorem lastBlock_getElem (m : PadInput) {j : Nat} (hj : j < 2) : (lastBlock m)[14 + j] =
    be32 ((toBE64 (bitLength m)).getD (4 * j) 0) ((toBE64 (bitLength m)).getD (4 * j + 1) 0)
      ((toBE64 (bitLength m)).getD (4 * j + 2) 0) ((toBE64 (bitLength m)).getD (4 * j + 3) 0) := by
  have hpos : 64 * ((pad m).length - 1) + 4 * (14 + j) = (padBytes m).length - 8 + 4 * j := by
    have hne : 0 < (pad m).length := List.length_pos_iff.mpr (pad_ne_nil m)
    rw [padBytes_length, ← pad_length]
    omega
  simp only [lastBlock, List.getLast_eq_getElem, pad_getElem_getElem m _ (show 14 + j < 16 by omega), hpos,
    List.getD_eq_getElem?_getD, Nat.add_assoc, padBytes_getElem?_bitLength]

/-- Settles O45: the last two words are the two halves of the length field, and the length does not overflow it. -/
theorem lastBlockHoldsTheBitLength : Obligations.LastBlockHoldsTheBitLength := by
  intro m b hb
  obtain rfl : lastBlock m = b := by simpa [lastBlock, List.getLast?_eq_some_getLast (pad_ne_nil m)] using hb
  have h14 : (lastBlock m)[14] = hiWord (bitLength m) :=
    (lastBlock_getElem m (j := 0) (by decide)).trans (be32_byteOf _)
  have h15 : (lastBlock m)[15] = loWord (bitLength m) :=
    (lastBlock_getElem m (j := 1) (by decide)).trans (be32_byteOf _)
  rw [h14, h15, hiWord_toNat, loWord_toNat, bitLength_toNat]
  exact ⟨rfl, rfl⟩

end Sys2Proof.Machine
end

section
/-! Proofs about the compression function (41_compression.md R131 to R138): the schedule, the stage functions, the round, and
the eighty rounds and the fold. -/

namespace Sys2Proof.Machine

/-! ### The schedule (R131) -/

/-- The recurrence of R131: the word that the four taps before index `i` give. -/
def nextWord (w : List Word) (i : Nat) : Word :=
  rotl32 (w.getD (i - 3) 0 ^^^ w.getD (i - 8) 0 ^^^ w.getD (i - 14) 0 ^^^ w.getD (i - 16) 0) 1

theorem extendSchedule_succ (n : Nat) (w : List Word) :
    extendSchedule (n + 1) w = extendSchedule n (w ++ [nextWord w w.length]) := rfl

/-- A schedule is only appended to. -/
theorem extendSchedule_isPrefix (n : Nat) (w : List Word) : w <+: extendSchedule n w := by
  induction n generalizing w with
  | zero => exact List.prefix_rfl
  | succ n ih => exact (List.prefix_append w _).trans (ih _)

theorem getD_of_isPrefix {w w' : List Word} (h : w <+: w') {i : Nat} (hi : i < w.length) : w'.getD i 0 = w.getD i 0 := by
  obtain ⟨rest, rfl⟩ := h
  exact List.getD_append _ _ _ _ hi

/-- The taps lie before index `i`, so words from `i` on make no difference. -/
theorem nextWord_of_isPrefix {w w' : List Word} (h : w <+: w') {i : Nat} (hpos : 0 < i) (hi : i ≤ w.length) :
    nextWord w' i = nextWord w i := by
  have htap (d : Nat) (hd : 0 < d) : w'.getD (i - d) 0 = w.getD (i - d) 0 := getD_of_isPrefix h (by omega)
  simp only [nextWord, htap 3 (by decide), htap 8 (by decide), htap 14 (by decide), htap 16 (by decide)]

/-- Every appended word satisfies the recurrence in the finished schedule. -/
theorem extendSchedule_getD (n : Nat) {w : List Word} (hw : 0 < w.length) {i : Nat} (hlo : w.length ≤ i)
    (hhi : i < w.length + n) : (extendSchedule n w).getD i 0 = nextWord (extendSchedule n w) i := by
  induction n generalizing w with
  | zero => omega
  | succ n ih =>
    obtain rfl | hlt := Nat.eq_or_lt_of_le hlo
    · rw [nextWord_of_isPrefix (extendSchedule_isPrefix (n + 1) w) hw le_rfl, extendSchedule_succ,
        getD_of_isPrefix (extendSchedule_isPrefix n _) (by simp)]
      simp
    · exact ih (w := w ++ [nextWord w w.length]) (by simp) (by simp; omega) (by simp; omega)

theorem schedule_getElem (blk : Block) {i : Nat} (hi : i < 80) :
    (schedule blk)[i] = (extendSchedule 64 blk.toList).getD i 0 := by
  rw [schedule, vectorOf_getElem, List.getD_eq_getElem]

/-- Settles O35: the schedule begins with the block it extends, and every appended word satisfies the recurrence. -/
theorem scheduleFollowsTheRecurrence : Obligations.ScheduleFollowsTheRecurrence := by
  intro blk
  constructor
  · intro i hi
    rw [schedule_getElem blk (by omega), getD_of_isPrefix (extendSchedule_isPrefix 64 _) (by simpa using hi)]
    simp [hi]
  · intro i hlo hhi
    simp only [schedule_getElem]
    exact extendSchedule_getD 64 (by simp) (by simpa using hlo) (by simpa using hhi)

/-! ### The stage functions (R132) -/

theorem choice_eq_ite : ∀ b c d : Bool, (b && c || !b && d) = if b then c else d := by decide

theorem parity_eq_decide : ∀ b c d : Bool, (b ^^ c ^^ d) = decide (b.toNat + c.toNat + d.toNat ∈ [1, 3]) := by decide

theorem majority_eq_decide :
    ∀ b c d : Bool, (b && c || b && d || c && d) = decide (2 ≤ b.toNat + c.toNat + d.toNat) := by decide

theorem stageFunction_choice_getLsbD (b c d : Word) {k : Nat} (hk : k < 32) :
    (stageFunction 0 b c d).getLsbD k = if b.getLsbD k then c.getLsbD k else d.getLsbD k := by
  rw [← choice_eq_ite]
  simp [stageFunction, hk]

theorem parity_getLsbD (b c d : Word) (k : Nat) :
    (b ^^^ c ^^^ d).getLsbD k =
      decide ((b.getLsbD k).toNat + (c.getLsbD k).toNat + (d.getLsbD k).toNat ∈ [1, 3]) := by
  rw [← parity_eq_decide, BitVec.getLsbD_xor, BitVec.getLsbD_xor]

theorem stageFunction_majority_getLsbD (b c d : Word) (k : Nat) :
    (stageFunction 2 b c d).getLsbD k =
      decide (2 ≤ (b.getLsbD k).toNat + (c.getLsbD k).toNat + (d.getLsbD k).toNat) := by
  rw [← majority_eq_decide]
  simp [stageFunction]

/-- Settles O36: each stage function works bit by bit, and on three bits it is choice, parity or majority. -/
theorem stageFunctionsBitByBit : Obligations.StageFunctionsBitByBit :=
  fun b c d k hk => ⟨stageFunction_choice_getLsbD b c d hk, parity_getLsbD b c d k,
    stageFunction_majority_getLsbD b c d k, parity_getLsbD b c d k⟩

/-! ### The round (R133, R134) -/

theorem stageOf_eq {t : Fin 80} {s : Fin 4} (h : s.val = t.val / 20) : stageOf t = s := Fin.ext h.symm

/-- Settles O37: the round's stage is the one stage whose number is `t div 20`. -/
theorem roundUpdatesTheWorkingRegisters : Obligations.RoundUpdatesTheWorkingRegisters := by
  intro t r w s hs
  rw [oneRound, stageOf_eq hs]

/-- Settles O38: each range of rounds is one stage. -/
theorem roundConstantsByStage : Obligations.RoundConstantsByStage := by
  intro t
  have ht := t.isLt
  split_ifs with h20 h40 h60
  · rw [stageOf_eq (s := 0) (show 0 = t.val / 20 by omega), roundConstant]
  · rw [stageOf_eq (s := 1) (show 1 = t.val / 20 by omega), roundConstant]
  · rw [stageOf_eq (s := 2) (show 2 = t.val / 20 by omega), roundConstant]
  · rw [stageOf_eq (s := 3) (show 3 = t.val / 20 by omega), roundConstant]

/-! ### The eighty rounds and the fold (R136 to R138) -/

/-- The working registers r(n) of R138 as one sequence; only n up to 80 is used. -/
def workAfter (h : Vector Word 5) (blk : Block) (n : Nat) : Work :=
  if hn : n ≤ 80 then afterRounds (schedule blk) (loadedWork h) n hn else loadedWork h

theorem workAfter_of_le (h : Vector Word 5) (blk : Block) {n : Nat} (hn : n ≤ 80) :
    workAfter h blk n = afterRounds (schedule blk) (loadedWork h) n hn := dif_pos hn

theorem workAfter_succ (h : Vector Word 5) (blk : Block) (t : Fin 80) :
    workAfter h blk (t.val + 1) = oneRound t (workAfter h blk t.val) (schedule blk) := by
  rw [workAfter_of_le h blk (Nat.succ_le_of_lt t.isLt), workAfter_of_le h blk t.isLt.le, afterRounds_succ]

theorem compress_eq_folded (h : Vector Word 5) (blk : Block) : compress h blk = folded h (workAfter h blk 80) := by
  rw [compress, workAfter_of_le h blk le_rfl]

theorem digestBytes_eq_flatMap (h : Vector Word 5) : digestBytes h = h.toList.flatMap toBE32 := by
  obtain ⟨⟨l⟩, hl⟩ := h
  match l, hl with
  | [a, b, c, d, e], _ => rfl

/-- Settles O39: r(n) is the state after n rounds, and the clauses on `Sha` are its definition and the byte form's. -/
theorem compressIsEightyRoundsAndAFold : Obligations.CompressIsEightyRoundsAndAFold := by
  refine ⟨fun h blk => ⟨workAfter h blk, ?_, workAfter_succ h blk, ?_⟩, fun m => ⟨?_, ?_, ?_⟩⟩
  · rw [workAfter_of_le h blk (Nat.zero_le 80), afterRounds_zero, loadedWork]
  · rw [compress_eq_folded]
    rfl
  · rw [sha, hashBlocks, iv]
  · exact digestBytes_length _
  · exact digestBytes_eq_flatMap _

end Sys2Proof.Machine
end

section
/-! Proofs about `INIT`, `COMPRESS` and `HASH` (41_compression.md R140 to R142), from what any command's decode answers and
what the engine's sequencing leaves. -/

namespace Sys2Proof.Machine

/-! ### What a command's decode answers (R93) -/

theorem exec_accepts {i : Instr} {s : State} (hb : s.busy = false) (hf : s.faulted = false)
    (hc : operandCheck i s = none) : ∃ t, exec i s = .next t ∧ t.faulted = false ∧ t.busy = true := by
  obtain ⟨-, hbusy, -, hfault, -⟩ := decodeStep_none_status hf (encode i)
  exact ⟨_, hc ▸ exec_of_not_busy hb i, hfault, hbusy⟩

theorem exec_raises {i : Instr} {s : State} {c : Cause} (hb : s.busy = false) (hf : s.faulted = false)
    (hc : operandCheck i s = some c) :
    ∃ t, exec i s = .next t ∧ t.faulted = true ∧ t.cause = causeCode c ∧ t.busy = false := by
  obtain ⟨-, hbusy, -, hfault, -, hcause⟩ := decodeStep_some_status hf (encode i) c
  exact ⟨_, hc ▸ exec_of_not_busy hb i, hfault, hcause, hbusy.trans hb⟩

/-! ### The three commands -/

/-- Settles O21: `INIT` has no operand to check, and its completion writes `DIGEST` only. -/
theorem initLoadsTheConstants : Obligations.InitLoadsTheConstants := by
  refine ⟨rfl, fun s hb hf => ?_, fun s hb => ?_⟩
  · obtain ⟨t, hexec, hfault, hbusy⟩ := exec_accepts (i := .init) hb hf rfl
    exact ⟨t, hexec, hbusy, hfault⟩
  · have hexec : exec .init s = .next (finish (completeInit s)) := exec_of_busy hb rfl
    obtain ⟨hbusy, hdone, -⟩ := finish_status (completeInit s)
    obtain ⟨-, hbits, -⟩ := exec_frame hexec
    exact ⟨_, hexec, rfl, hbusy, hdone, hbits hb⟩

/-- Settles O22: `COMPRESS` has no operand to check, and its completion is one folding of `BLK` into `DIGEST`. -/
theorem compressFoldsTheBlock : Obligations.CompressFoldsTheBlock := by
  refine ⟨rfl, fun s hb hf => ?_, fun s hb => ?_⟩
  · obtain ⟨t, hexec, hfault, hbusy⟩ := exec_accepts (i := .compress) hb hf rfl
    exact ⟨t, hexec, hbusy, hfault⟩
  · have hexec : exec .compress s = .next (finish (foldSeq s)) := exec_of_busy hb rfl
    obtain ⟨hbusy, hdone, -⟩ := finish_status (foldSeq s)
    refine ⟨_, hexec, ?_, ?_, hbusy, hdone⟩ <;> simp only [finish_fields, foldSeq_eq]

/-- Settles O23: decode makes the one check of `HASH`; at complete `HashSeq` of the message leaves its results, and the frame
of the command gives the rest. -/
theorem hashDigestsTheMessage : Obligations.HashDigestsTheMessage := by
  refine ⟨rfl, fun s hb hf => ?_, fun s hb hcap => ?_⟩
  · split_ifs with hlong
    · exact exec_raises (i := .hash) (c := .msgLenRange) hb hf (if_pos hlong)
    · exact exec_accepts (i := .hash) hb hf (if_neg hlong)
  · have hexec : exec .hash s = .next (finish (completeHash s)) :=
      exec_of_busy (i := .hash) hb ((checkMsgLen_eq_none s).mpr hcap)
    obtain ⟨hbusy, hdone, -⟩ := finish_status (completeHash s)
    obtain ⟨-, -, -, -, hmsgLen, -, hctrHi, hctrLo, -, -, -, hcode, -, -, hcells, -⟩ :=
      digestCommandsFrame .hash s _ (.inr (.inr rfl)) hexec
    have hdigest : (finish (completeHash s)).digest = sha (messageInput s) := by
      simp only [finish_fields, completeHash, hashSeq_digest]
    have hblk : (finish (completeHash s)).blk = lastBlock (messageInput s) := by
      simp only [finish_fields, completeHash, hashSeq_blk]
    have hlast : (pad (messageInput s)).getLast? = some (lastBlock (messageInput s)) :=
      List.getLast?_eq_some_getLast (pad_ne_nil _)
    exact ⟨_, hexec, hdigest, hblk ▸ hlast, hbusy, hdone, hcells, hmsgLen, hcode, hctrHi, hctrLo⟩

end Sys2Proof.Machine
end

section
/-! Proofs about the MAC builder and `MAC` (42_mac.md): the normalised key, the two hashes, the last block of the outer one,
and what the command leaves. -/

namespace Sys2Proof.Machine

/-! ### The normalised key (R171, R172) -/

theorem normalizeKey_toList_of_le {k : PadInput} (h : k.bytes.length ≤ 64) :
    (normalizeKey k).toList = k.bytes ++ zeroBytes (64 - k.bytes.length) := by
  rw [normalizeKey, dif_pos h, paddedKey, vectorOf_toList]

theorem normalizeKey_toList_of_lt {k : PadInput} (h : 64 < k.bytes.length) :
    (normalizeKey k).toList = digestBytes (sha k) ++ zeroBytes 44 := by
  rw [normalizeKey, dif_neg (Nat.not_le.mpr h), hashedKey, vectorOf_toList]

/-- Zero bytes that a short key already ends with are among those its normalisation appends. -/
theorem normalizeKey_append_zeroBytes {k k' : PadInput} {n : Nat} (h : k.bytes.length + n ≤ 64)
    (hk' : k'.bytes = k.bytes ++ zeroBytes n) : normalizeKey k' = normalizeKey k := by
  have hlen : k'.bytes.length = k.bytes.length + n := by simp [hk']
  have hzeros : n + (64 - (k.bytes.length + n)) = 64 - k.bytes.length := by omega
  apply Vector.toList_inj.mp
  rw [normalizeKey_toList_of_le (hlen ▸ h), normalizeKey_toList_of_le (by omega), hlen, hk', List.append_assoc]
  simp only [zeroBytes, List.replicate_append_replicate, hzeros]

/-- Settles O47: the two branches of the normalisation, and the extension of a short key. -/
theorem normalizedKeyForms : Obligations.NormalizedKeyForms := fun _ =>
  ⟨normalizeKey_toList_of_le, normalizeKey_toList_of_lt, fun _ _ => normalizeKey_append_zeroBytes⟩

/-! ### The two hashes (R173, R175) -/

@[simp] theorem outerInput_length (k0 : Vector Byte 64) (inner : Vector Byte 20) :
    (outerInput k0 inner).bytes.length = 84 := by simp [outerInput]

/-- The outer input in terms of the inner digest's words. -/
theorem outerInput_tagOf_bytes (k0 : Vector Byte 64) (d : Vector Word 5) :
    (outerInput k0 (tagOf d)).bytes = xorBytes k0.toList opad ++ digestBytes d := by
  simp only [outerInput, tagOf, vectorOf_toList]

/-- Settles O48: the two inputs are the model's. -/
theorem macOfIsTwoHashes : Obligations.MacOfIsTwoHashes := fun k msg h =>
  ⟨innerInput (normalizeKey k) msg h, outerInput (normalizeKey k) (tagOf (innerDigest k msg h)), rfl,
    outerInput_tagOf_bytes _ _, rfl⟩

/-! ### The last block of the outer hash (R176) -/

/-- Byte `4 j + r` of a sequence of words written out is byte `r` of word `j`. -/
theorem flatMap_toBE32_getD (ws : List Word) {j : Nat} (hj : j < ws.length) (r : Fin 4) :
    (ws.flatMap toBE32).getD (4 * j + r.val) 0 = byteOf ws[j] r := by
  induction ws generalizing j with
  | nil => exact absurd hj (Nat.not_lt_zero _)
  | cons w ws ih =>
    cases j with
    | zero => fin_cases r <;> rfl
    | succ j =>
      rw [show 4 * (j + 1) + r.val = (4 * j + r.val) + 4 by omega]
      exact ih (Nat.lt_of_succ_lt_succ hj)

/-- Packing the bytes of 16 words gives the words back (R67). -/
theorem packBlock_flatMap_toBE32 {ws : List Word} (h : ws.length = 16) : (packBlock (ws.flatMap toBE32)).toList = ws := by
  apply List.ext_getElem (by simp [h])
  intro j hj _
  rw [Vector.getElem_toList, packBlock_getElem]
  have hbyte := flatMap_toBE32_getD ws (show j < ws.length by simpa [h] using hj)
  calc
    _ = be32 (byteOf ws[j] 0) (byteOf ws[j] 1) (byteOf ws[j] 2) (byteOf ws[j] 3) := by
      rw [← hbyte 0, ← hbyte 1, ← hbyte 2, ← hbyte 3]
      rfl
    _ = ws[j] := be32_byteOf _

/-- The words that follow the inner digest: the padding of an 84-byte message and its length in bits. -/
def outerPadding : List Word := [0x80000000, 0, 0, 0, 0, 0, 0, 0, 0, 0, 0x000002A0]

/-- The outer input's 64 key bytes fill a block; the inner digest, 0x80, 35 zero bytes and the bit length 672 fill another. -/
theorem padBytes_outerInput (k0 : Vector Byte 64) (d : Vector Word 5) :
    padBytes (outerInput k0 (tagOf d)) = xorBytes k0.toList opad ++ (d.toList ++ outerPadding).flatMap toBE32 := by
  rw [padBytes, outerInput_length, outerInput_tagOf_bytes, digestBytes_eq_flatMap, List.flatMap_append]
  simp only [List.append_assoc]
  rfl

/-- The last block packs the last 64 bytes of the padded message (R110 step 5). -/
theorem lastBlock_eq_packBlock (m : PadInput) :
    lastBlock m = packBlock ((padBytes m).drop (64 * (numBlocks m.bytes.length - 1))) := by
  rw [lastBlock, List.getLast_eq_getElem]
  simp only [pad, List.getElem_map, List.getElem_range, List.length_map, List.length_range]
  rw [List.take_of_length_le (by rw [List.length_drop, padBytes_length]; omega)]

theorem lastBlock_outerInput (k0 : Vector Byte 64) (d : Vector Word 5) :
    (lastBlock (outerInput k0 (tagOf d))).toList = d.toList ++ outerPadding := by
  have hlast : (padBytes (outerInput k0 (tagOf d))).drop (64 * (numBlocks (outerInput k0 (tagOf d)).bytes.length - 1)) =
      (d.toList ++ outerPadding).flatMap toBE32 := by
    rw [padBytes_outerInput, outerInput_length]
    exact List.drop_left' (by simp [numBlocks])
  rw [lastBlock_eq_packBlock, hlast, packBlock_flatMap_toBE32 (by simp [outerPadding])]

/-! ### What `MAC` leaves (R176, R177) -/

@[simp] theorem hashSeq_inner (m : PadInput) (s : State) : (hashSeq m s).inner = s.inner := by rw [hashSeq_eq]; rfl

/-- `MacSeq(k, msg)` leaves the normalised key in `K0` and the inner digest's bytes in `INNER` (R36, R37). -/
theorem macSeq_macRegs (k : PadInput) (msg : List Byte) (h : 8 * (64 + msg.length) < 2 ^ 64) (s : State) :
    (macSeq k msg h s).k0 = normalizeKey k ∧ (macSeq k msg h s).inner = tagOf (innerDigest k msg h) := by
  constructor
  · simp only [macSeq, hashSeq_k0, loadKey_k0]
  · simp only [macSeq, hashSeq_inner, hashSeq_digest, loadKey_k0, innerDigest]

theorem macSeq_sched (k : PadInput) (msg : List Byte) (h : 8 * (64 + msg.length) < 2 ^ 64) (s : State) :
    (macSeq k msg h s).sched = schedule (macSeq k msg h s).blk :=
  (hashSeq_rounds _ _).2

/-- `MAC` completes when both lengths are in range. -/
theorem exec_mac_of_busy {s : State} (hb : s.busy = true) (hmsg : s.msgLen.toNat ≤ s.params.msgCap)
    (hkey : s.keyLen.toNat ≤ s.params.keyCap) : exec .mac s = .next (finish (completeMac s)) :=
  exec_of_busy (i := .mac) hb
    ((firstCause_eq_none _ _).mpr ⟨(checkMsgLen_eq_none s).mpr hmsg, (checkKeyLen_eq_none s).mpr hkey⟩)

/-- Settles O24: decode checks the message's length before the key's; at complete `MacSeq` leaves its results, and the frame
of the command gives the rest. -/
theorem macTagsTheMessage : Obligations.MacTagsTheMessage := by
  refine ⟨rfl, fun s hb hf => ?_, fun s hb hmsg hkey => ?_⟩
  · have hcheck := operandCheck_eq .mac s
    split_ifs with hmsg hkey
    · exact exec_raises (i := .mac) (c := .msgLenRange) hb hf (by simpa [encode, hmsg] using hcheck)
    · exact exec_raises (i := .mac) (c := .keyLenRange) hb hf (by simpa [encode, hmsg, hkey] using hcheck)
    · exact exec_accepts (i := .mac) hb hf (by simpa [encode, hmsg, hkey] using hcheck)
  · have hexec := exec_mac_of_busy hb hmsg hkey
    obtain ⟨hbusy, hdone, -⟩ := finish_status (completeMac s)
    obtain ⟨-, -, -, hcode, hctr, hmsgLen, hkeyLen, hnowHi, hnowLo, hstepLen, hcells, -⟩ :=
      macCommandsFrame .mac s _ (.inl rfl) hexec
    obtain ⟨hctrHi, hctrLo⟩ := hctr (.inl rfl)
    have hdigest : (finish (completeMac s)).digest = macOf (keyInput s) (messageBytes s) (messageBytes_fits s) := by
      simp only [finish_fields, completeMac, macSeq_digest]
    have hblk : (finish (completeMac s)).blk = lastBlock (outerInput (normalizeKey (keyInput s))
        (tagOf (innerDigest (keyInput s) (messageBytes s) (messageBytes_fits s)))) := by
      simp only [finish_fields, completeMac, macSeq_blk]
    exact ⟨_, hexec, hdigest, hblk ▸ List.getLast?_eq_some_getLast (pad_ne_nil _), hbusy, hdone, hcells, hmsgLen,
      hkeyLen, hctrHi, hctrLo, hnowHi, hnowLo, hstepLen, hcode rfl⟩

/-- Settles O25: what `MacSeq` leaves in the registers, the last outer block in terms of the inner digest's words. -/
theorem macFillsKeyAndInnerRegisters : Obligations.MacFillsKeyAndInnerRegisters := by
  intro s hb hmsg hkey
  refine ⟨_, exec_mac_of_busy hb hmsg hkey, ?_⟩
  simp only [finish_fields, completeMac]
  obtain ⟨hk0, hinner⟩ := macSeq_macRegs (keyInput s) (messageBytes s) (messageBytes_fits s) s
  refine ⟨hk0, hinner, macSeq_sched _ _ _ _, macSeq_t _ _ _ _, ?_⟩
  rw [macSeq_blk]
  exact lastBlock_outerInput _ _

end Sys2Proof.Machine
end

section
/-! Proofs about the counter truncator and `HOTP` (43_hotp.md): the truncation's values, what the completion leaves, and what
it depends on. -/

namespace Sys2Proof.Machine

/-! ### Truncate (R192, R193) -/

/-- The mask 0x0F takes the remainder by 16. -/
theorem truncOffset_eq_mod (tag : Vector Byte 20) : truncOffset tag = tag[19].toNat % 16 :=
  Nat.and_two_pow_sub_one_eq_mod _ 4

/-- Clearing bit 31 takes the remainder by 2^31. -/
theorem truncWindow_toNat (tag : Vector Byte 20) : (truncWindow tag).toNat = (rawWindow tag).toNat % 2 ^ 31 :=
  Nat.and_two_pow_sub_one_eq_mod _ 31

theorem truncCode_lt (tag : Vector Byte 20) : truncCode tag < codeModulus := Nat.mod_lt _ (by decide)

/-- `CODE` is wide enough for every code (R30). -/
theorem toNat_ofNat_truncCode (tag : Vector Byte 20) : (BitVec.ofNat 32 (truncCode tag)).toNat = truncCode tag :=
  Nat.mod_eq_of_lt (Nat.lt_trans (truncCode_lt tag) (by decide))

/-- Settles O50: the two masks are remainders, and the code is a remainder by 1000000. -/
theorem truncationValues : Obligations.TruncationValues := fun tag =>
  ⟨truncOffset tag, truncOffset_le tag, truncOffset_eq_mod tag, rfl, truncWindow_toNat tag, rfl,
    Nat.le_of_lt_succ (truncCode_lt tag)⟩

/-! ### What `HOTP` leaves (R195) -/

/-- The 8 bytes of a counter are short enough to be a message of the MAC builder. -/
theorem toBE64_fits (v : BitVec 64) : 8 * (64 + (toBE64 v).length) < 2 ^ 64 := by
  rw [toBE64_length]
  decide

/-- `HOTP` leaves in `BLK` the last outer block of the counter's MAC. -/
theorem completeHotp_blk (s : State) :
    (completeHotp s).blk = lastBlock (outerInput (normalizeKey (keyInput s))
      (tagOf (innerDigest (keyInput s) (toBE64 (counter s)) (toBE64_fits _)))) :=
  macSeq_blk _ _ (toBE64_fits _) s

/-- Settles O26: decode makes the one check of `HOTP`; at complete the results are the counter's MAC and its truncation, and the
frame of the command gives the rest. -/
theorem hotpGivesTheCode : Obligations.HotpGivesTheCode := by
  refine ⟨rfl, fun s hb hf => ?_, fun s hb hkey => ?_⟩
  · split_ifs with hlong
    · exact exec_raises (i := .hotp) (c := .keyLenRange) hb hf (if_pos hlong)
    · exact exec_accepts (i := .hotp) hb hf (if_neg hlong)
  · have hexec : exec .hotp s = .next (finish (completeHotp s)) :=
      exec_of_busy (i := .hotp) hb ((checkKeyLen_eq_none s).mpr hkey)
    obtain ⟨hbusy, hdone, -⟩ := finish_status (completeHotp s)
    obtain ⟨-, -, -, -, hctr, hmsgLen, hkeyLen, -, -, -, hcells, -⟩ := macCommandsFrame .hotp s _ (.inr (.inl rfl)) hexec
    obtain ⟨hctrHi, hctrLo⟩ := hctr (.inr rfl)
    obtain ⟨hdigest, hcode⟩ := completeHotp_results s
    refine ⟨_, hexec, fun _ => hdigest, fun _ => ?_, ?_, hbusy, hdone, hcells, hmsgLen, hkeyLen, hctrHi, hctrLo⟩
    · exact completeHotp_blk s ▸ List.getLast?_eq_some_getLast (pad_ne_nil _)
    · exact (congrArg BitVec.toNat hcode).trans (toNat_ofNat_truncCode _)

/-! ### What `HOTP` depends on (R94, R196) -/

/-- The completion's results are functions of the key and the counter. -/
theorem completeHotp_congr {s1 s2 : State} (hkey : keyInput s1 = keyInput s2) (hctr : counter s1 = counter s2) :
    (completeHotp s1).code = (completeHotp s2).code ∧ (completeHotp s1).digest = (completeHotp s2).digest ∧
    (completeHotp s1).blk = (completeHotp s2).blk := by
  obtain ⟨hdigest1, hcode1⟩ := completeHotp_results s1
  obtain ⟨hdigest2, hcode2⟩ := completeHotp_results s2
  have hdigest : (completeHotp s1).digest = (completeHotp s2).digest := by
    simp only [hdigest1, hdigest2, hkey, hctr]
  refine ⟨?_, hdigest, ?_⟩
  · rw [hcode1, hcode2, hdigest]
  · simp only [completeHotp_blk, hkey, hctr]

/-- Settles O34: the decode leaves key and counter as they are, and the completion's results are functions of the two. -/
theorem hotpDependsOnKeyAndCounterOnly : Obligations.HotpDependsOnKeyAndCounterOnly := by
  intro s1 s2 hb1 hf1 hb2 hf2 hlen hcap1 hcap2 hcells hctrHi hctrLo
  have hc1 : operandCheck .hotp s1 = none := (checkKeyLen_eq_none s1).mpr hcap1
  have hc2 : operandCheck .hotp s2 = none := (checkKeyLen_eq_none s2).mpr hcap2
  have hkey : keyInput (decodeStep (encode .hotp) none s1) = keyInput (decodeStep (encode .hotp) none s2) :=
    keyInput_congr (by simpa only [keyBytes_decodeStep] using keyBytes_congr hlen hcells)
  have hctr : counter (decodeStep (encode .hotp) none s1) = counter (decodeStep (encode .hotp) none s2) := by
    simp only [counter, decodeStep_fields, hctrHi, hctrLo]
  exact ⟨_, _, performed_eq hb1 hf1 hc1, performed_eq hb2 hf2 hc2, completeHotp_congr hkey hctr⟩

end Sys2Proof.Machine
end

section
/-! Proofs about `TOTP` (44_totp.md): the time step, the decode's two checks, what the completion leaves, and `HOTP` at the
counter it left. -/

namespace Sys2Proof.Machine

/-! ### The time step (R206) -/

/-- Settles O51: the quotient is at most the time, so 64 bits hold it. -/
theorem timeStepIsFloorDivision : Obligations.TimeStepIsFloorDivision := fun now _ _ =>
  Nat.mod_eq_of_lt (Nat.lt_of_le_of_lt (Nat.div_le_self _ _) now.isLt)

/-! ### The decode (R207, R208) -/

theorem operandCheck_totp (s : State) :
    operandCheck .totp s =
      if s.params.keyCap < s.keyLen.toNat then some .keyLenRange else if s.stepLen = 0 then some .stepZero else none := by
  simpa [encode] using operandCheck_eq .totp s

theorem operandCheck_totp_eq_none {s : State} (hkey : s.keyLen.toNat ≤ s.params.keyCap) (hstep : s.stepLen ≠ 0) :
    operandCheck .totp s = none := by
  rw [operandCheck_totp, if_neg hkey.not_gt, if_neg hstep]

/-- Settles O20: with the key in range the zero step is the first check that fails. -/
theorem zeroStepFaults : Obligations.ZeroStepFaults := by
  intro s hb hf hkey hstep
  have hcheck : operandCheck .totp s = some .stepZero := by rw [operandCheck_totp, if_neg hkey.not_gt, if_pos hstep]
  have hexec := exec_of_not_busy hb .totp
  rw [hcheck] at hexec
  obtain ⟨hframe, hdone, hwerr⟩ := decodeStep_leaves hf (encode .totp) (some .stepZero)
  obtain ⟨-, hbusy, -, hfault, -, hcause⟩ := decodeStep_some_status hf (encode .totp) .stepZero
  exact ⟨_, hexec, hframe, hfault, hcause, hdone, hwerr, hbusy.trans hb⟩

/-! ### What `TOTP` leaves (R207) -/

theorem completeTotp_counter (s : State) (h : s.stepLen ≠ 0) :
    counter (completeTotp s h) = timeStep (nowSeconds s) s.stepLen h := by
  rw [completeTotp_frame]
  exact joinWords_hiWord_loWord _

/-- `HOTP` at `TOTP`'s key and time step leaves what `TOTP` leaves. -/
theorem completeHotp_eq_completeTotp {s u : State} (h : s.stepLen ≠ 0) (hkey : keyInput u = keyInput s)
    (hctr : counter u = timeStep (nowSeconds s) s.stepLen h) :
    (completeHotp u).code = (completeTotp s h).code ∧ (completeHotp u).digest = (completeTotp s h).digest ∧
    (completeHotp u).blk = (completeTotp s h).blk :=
  completeHotp_congr hkey (hctr.trans (joinWords_hiWord_loWord _).symm)

/-- `TOTP` leaves in `BLK` the last outer block of its counter's MAC. -/
theorem completeTotp_blk (s : State) (h : s.stepLen ≠ 0) :
    (completeTotp s h).blk = lastBlock (outerInput (normalizeKey (keyInput s))
      (tagOf (innerDigest (keyInput s) (toBE64 (counter (completeTotp s h))) (toBE64_fits _)))) := by
  have hkey : keyInput (completeTotp s h) = keyInput s := by
    rw [completeTotp_frame]
    rfl
  obtain ⟨-, -, hblk⟩ := completeHotp_eq_completeTotp h hkey (completeTotp_counter s h)
  rw [← hblk, completeHotp_blk]
  simp only [hkey]

/-- Settles O27: decode makes the two checks in order; at complete `CTR` is the time step, the results are `HOTP`'s at it, and
the frame of the command gives the rest. -/
theorem totpGivesTheCode : Obligations.TotpGivesTheCode := by
  refine ⟨rfl, fun s hb hf => ?_, fun s hb hkey hstep => ?_⟩
  · have hcheck := operandCheck_totp s
    split_ifs at hcheck ⊢
    · exact exec_raises (i := .totp) (c := .keyLenRange) hb hf hcheck
    · exact exec_raises (i := .totp) (c := .stepZero) hb hf hcheck
    · exact exec_accepts (i := .totp) hb hf hcheck
  · have hexec : exec .totp s = .next (finish (completeTotp s hstep)) :=
      exec_of_busy (i := .totp) hb (operandCheck_totp_eq_none hkey hstep)
    obtain ⟨hbusy, hdone, -⟩ := finish_status (completeTotp s hstep)
    obtain ⟨-, -, -, -, -, hmsgLen, hkeyLen, hnowHi, hnowLo, hstepLen, hcells, -⟩ :=
      macCommandsFrame .totp s _ (.inr (.inr rfl)) hexec
    have hctr := completeTotp_counter s hstep
    obtain ⟨hdigest, hcode⟩ := completeTotp_results s hstep
    refine ⟨_, hexec, ?_, fun _ => ?_, fun _ => ?_, ?_, hbusy, hdone, hcells, hmsgLen, hkeyLen, hnowHi, hnowLo, hstepLen⟩
    · rw [← joinWords_toNat, ← joinWords_toNat]
      exact (congrArg BitVec.toNat hctr).trans (timeStepIsFloorDivision _ _ hstep)
    · simp only [← hctr] at hdigest
      exact hdigest
    · exact completeTotp_blk s hstep ▸ List.getLast?_eq_some_getLast (pad_ne_nil _)
    · exact (congrArg BitVec.toNat hcode).trans (toNat_ofNat_truncCode _)

/-! ### `HOTP` at the counter that `TOTP` left (R207) -/

theorem keyInput_completion (i : Instr) (s : State) (hc : operandCheck i s = none) :
    keyInput (completion i s hc) = keyInput s := by
  rw [completion_frame]
  rfl

theorem keyInput_finish (s : State) : keyInput (finish s) = keyInput s := rfl

theorem operandCheck_finish (i : Instr) (s : State) : operandCheck i (finish s) = operandCheck i s :=
  operandCheck_congr i rfl rfl rfl rfl

theorem operandCheck_completion (i j : Instr) (s : State) (hc : operandCheck i s = none) :
    operandCheck j (completion i s hc) = operandCheck j s := by
  rw [completion_frame]
  exact operandCheck_congr j rfl rfl rfl rfl

/-- A command performed leaves the operands that the checks read, so the next command's checks are unaffected (R94). -/
theorem operandCheck_performedState (i j : Instr) (s : State) (hc : operandCheck i s = none) :
    operandCheck j (performedState i s hc) = operandCheck j s := by
  rw [performedState, operandCheck_finish, operandCheck_completion, operandCheck_decodeStep]

/-- Settles O30: after `TOTP` the key is the same and `CTR` is the time step, and the completion of `HOTP` reads no more. -/
theorem totpEqualsHotpAtItsCounter : Obligations.TotpEqualsHotpAtItsCounter := by
  intro s hb hf hkey hstep
  have hc : operandCheck .totp s = none := operandCheck_totp_eq_none hkey hstep
  have hc' : operandCheck .hotp (performedState .totp s hc) = none :=
    (operandCheck_performedState .totp .hotp s hc).trans ((checkKeyLen_eq_none s).mpr hkey)
  obtain ⟨hb', hf'⟩ := performedState_idle hf hc
  refine ⟨_, _, performed_eq hb hf hc, performed_eq hb' hf' hc', ?_⟩
  have hstep' : (decodeStep (encode .totp) none s).stepLen ≠ 0 := by simpa only [decodeStep_fields] using hstep
  have hkeyInput : keyInput (decodeStep (encode .hotp) none (performedState .totp s hc)) =
      keyInput (decodeStep (encode .totp) none s) := by
    rw [keyInput_congr (keyBytes_decodeStep _ _ _), performedState, keyInput_finish, keyInput_completion]
  have hctr : counter (decodeStep (encode .hotp) none (performedState .totp s hc)) =
      counter (completeTotp (decodeStep (encode .totp) none s) hstep') := by
    simp only [counter, decodeStep_fields, performedState, finish_fields, completion]
  obtain ⟨hcode, hdigest, -⟩ := completeHotp_eq_completeTotp hstep' hkeyInput (hctr.trans (completeTotp_counter _ hstep'))
  simp only [performedState, finish_fields]
  exact ⟨hcode, hdigest⟩

end Sys2Proof.Machine
end

section
/-! Proofs about faults (60_exceptions.md R221 to R224): what a failed operand check latches, and that only reset leaves it. -/

namespace Sys2Proof.Machine

/-! ### Taking a fault at decode (R221 to R223) -/

/-- A command decoded while its first failing check gives the cause `c` latches `c` and writes `CMD` and `STATUS` only. -/
theorem exec_latches_fault {i : Instr} {s : State} {c : Cause} (hb : s.busy = false) (hf : s.faulted = false)
    (hc : operandCheck i s = some c) :
    ∃ t, exec i s = .next t ∧ t = { s with cmd := encode i, status := t.status } ∧
      t.faulted = true ∧ t.cause = causeCode c ∧ t.doneFlag = false ∧ t.werr = false ∧ t.busy = false := by
  obtain ⟨hframe, hdone, hwerr⟩ := decodeStep_leaves hf (encode i) (some c)
  obtain ⟨-, hbusy, -, hfault, -, hcause⟩ := decodeStep_some_status hf (encode i) c
  exact ⟨_, hc ▸ exec_of_not_busy hb i, hframe, hfault, hcause, hdone, hwerr, hbusy.trans hb⟩

theorem checkMsgLen_of_lt {s : State} (h : s.params.msgCap < s.msgLen.toNat) : checkMsgLen s = some .msgLenRange := if_pos h

theorem checkKeyLen_of_lt {s : State} (h : s.params.keyCap < s.keyLen.toNat) : checkKeyLen s = some .keyLenRange := if_pos h

/-- Settles O18: the message's length is the first operand check of both commands. -/
theorem messageTooLongFaults : Obligations.MessageTooLongFaults := by
  intro i s hi hb hf hlong
  refine exec_latches_fault (c := .msgLenRange) hb hf ?_
  rcases hi with rfl | rfl
  · exact checkMsgLen_of_lt hlong
  · rw [operandCheck, checkMsgLen_of_lt hlong, firstCause]

/-- Settles O19: the key's length is checked after the message's in `MAC`, alone in `HOTP`, before the step in `TOTP`. -/
theorem keyTooLongFaults : Obligations.KeyTooLongFaults := by
  intro i s hi hb hf hlong hmsg
  refine exec_latches_fault (c := .keyLenRange) hb hf ?_
  rcases hi with rfl | rfl | rfl
  · rw [operandCheck, (checkMsgLen_eq_none s).mpr (hmsg rfl), checkKeyLen_of_lt hlong, firstCause]
  · exact checkKeyLen_of_lt hlong
  · rw [operandCheck, checkKeyLen_of_lt hlong, firstCause]

/-! ### A latched fault stays (R224) -/

/-- A faulted state runs no command (R24). -/
theorem State.not_busy_of_faulted {s : State} (h : s.statusLegal = true) (hf : s.faulted = true) : s.busy = false := by
  cases hb : s.busy
  · rfl
  · simp [State.not_faulted_of_busy h hb] at hf

/-- A host write to an idle, faulted OTPCORE is ignored, or stores an operand: a command word is dropped (R42, R224). -/
theorem hostWrite_of_faulted {s t : State} {i : Nat} {v : Word} (hb : s.busy = false) (hf : s.faulted = true)
    (h : hostWrite i v s = .next t) : t = s ∨ ∃ r, t = storeReg s r v := by
  obtain ⟨-, he⟩ | ⟨r, -, ⟨-, he⟩ | ⟨-, hb', -⟩ | ⟨-, -, he⟩ | ⟨-, -, -, he⟩⟩ := hostWrite_cases i v s
  · cases he.symm.trans h
  · cases he.symm.trans h
    exact .inl rfl
  · simp [hb] at hb'
  · have hdropped : writeCmd v s = .next s :=
      (hostWrite_cmd hb v).symm.trans (commandWriteAfterFaultIsDropped s v hb hf)
    cases (he.trans hdropped).symm.trans h
    exact .inl rfl
  · cases he.symm.trans h
    exact .inr ⟨r, rfl⟩

/-- No event but a reset changes the results, `CMD` or `STATUS` of an idle, faulted OTPCORE. -/
theorem handle_of_faulted {s t : State} {e : Event} (hb : s.busy = false) (hf : s.faulted = true) (hreset : e ≠ .reset)
    (h : handle e s = .next t) : t.status = s.status ∧ t.cmd = s.cmd ∧ t.digest = s.digest ∧ t.code = s.code := by
  cases e with
  | reset => exact absurd rfl hreset
  | engine =>
    cases (engineTurn_of_not_busy hb).symm.trans h
    exact ⟨rfl, rfl, rfl, rfl⟩
  | read i =>
    obtain ⟨-, he⟩ | ⟨r, -, value, draws, he⟩ := hostRead_cases i s
    · cases he.symm.trans h
    · cases he.symm.trans h
      exact ⟨rfl, rfl, rfl, rfl⟩
  | write i v =>
    obtain rfl | ⟨r, rfl⟩ := hostWrite_of_faulted hb hf h
    · exact ⟨rfl, rfl, rfl, rfl⟩
    · simp only [storeReg_fields, and_self]

/-- Settles O55: a faulted engine is idle, and no event but a reset touches `STATUS`. -/
theorem onlyResetLeavesAFault : Obligations.OnlyResetLeavesAFault := by
  intro s t hlegal hf hreset h
  have hb := State.not_busy_of_faulted hlegal hf
  obtain ⟨hstatus, hcmd, hdigest, hcode⟩ :
      t.status = s.status ∧ t.cmd = s.cmd ∧ t.digest = s.digest ∧ t.code = s.code := by
    cases hp : s.pending with
    | nil => exact handle_of_faulted (e := .engine) hb hf nofun ((step_of_nothing_pending hp).symm.trans h)
    | cons e rest =>
      have he : e ≠ .reset := by
        rintro rfl
        exact hreset rest hp
      exact handle_of_faulted (s := { s with pending := rest }) hb hf he ((step_of_pending hp).symm.trans h)
  refine ⟨?_, ?_, hcmd, ?_, hdigest, hcode⟩
  · rw [State.faulted, hstatus]; exact hf
  · rw [State.cause, State.cause, hstatus]
  · rw [State.busy, hstatus]; exact hb

end Sys2Proof.Machine
end

section
/-! Proofs about reset and the hazard of writing while `BUSY` is 1 (70_reset_and_hazards.md R260, R261, R265). -/

namespace Sys2Proof.Machine

/-! ### A write while `BUSY` is 1 -/

/-- A write to a writable register while `BUSY` is 1 is dropped (R42 case 3). -/
theorem hostWrite_dropped {s : State} {i : Nat} {r : Reg} (hl : locate s.params i = some r) (hr : readOnly r = false)
    (hb : s.busy = true) (v : Word) : hostWrite i v s = .next (dropWrite s) := by
  simp [hostWrite, hl, hr, hb]

/-- A dropped write changes `STATUS` only. -/
theorem dropWrite_frame (s : State) : dropWrite s = { s with status := (dropWrite s).status } := rfl

/-- Settles O13: the write is dropped, which sets bit 3 of `STATUS` and no other. -/
theorem writeWhileBusyIsDropped : Obligations.WriteWhileBusyIsDropped := by
  intro s i v r hl hr hb
  obtain ⟨-, -, -, hwerr, -⟩ := dropWrite_status s
  exact ⟨dropWrite s, hostWrite_dropped hl hr hb v, dropWrite_frame s, hwerr, dropWrite_status_bit s⟩

/-! ### Reset -/

/-- Reset counts the epoch up and forgets every written cell, so each holds its free value of the new epoch (R260). -/
theorem applyReset_cell (s : State) (a : Nat) : (applyReset s).cell a = Config.freeCell (s.epoch + 1) a := rfl

/-- Settles O6: the registers after reset are those of `State.reset`, whose values O5 lists; the cells are free. -/
theorem resetFromAnyState : Obligations.ResetFromAnyState := by
  intro s rest hp
  obtain ⟨hcmd, hstatus, hmsgLen, hkeyLen, hctrHi, hctrLo, hnowHi, hnowLo, hstepLen, hcode, -, hblk⟩ :=
    resetLeavesTheListedValues
  obtain ⟨hparams, hpending, hreads, -⟩ := applyReset_fields { s with pending := rest }
  exact ⟨applyReset { s with pending := rest }, step_of_pending hp, hcmd, hstatus, hmsgLen, hkeyLen, hctrHi, hctrLo,
    hnowHi, hnowLo, hstepLen, hcode, rfl, hblk, applyReset_cell _, hparams, hpending, hreads⟩

end Sys2Proof.Machine
end
